-- ==== Sys2Proof/Word.lean ====
section
/-! DEFINITION. The word types of the hardware (spec/00_scope.md R5, R8; spec/10_state.md R27). -/

namespace Sys2Proof

/-- A register value, a memory cell, an opcode or operand byte: 8 bits, unsigned (R5 `XLEN`, `CELL`; R8). -/
abbrev Byte := BitVec 8

/-- The program counter's word: 9 bits, the least width that holds 257 (R27, decision D5). -/
abbrev PcWord := BitVec 9

end Sys2Proof
end

