-- ==== Sys2Proof/Syntax.lean ====
section
/-! DEFINITION. The instructions: one constructor for each row of spec/opcode_table.json (spec/30_encoding.md
R61, R65). An operand is the WHOLE operand byte (R63, R64): whether a register operand names a register is
checked when the register is accessed, not by the decoder. An unknown opcode byte is no instruction (R67); it
is an outcome of the dispatch (R86), in Machine/Cycle.lean. -/

namespace Sys2Proof

/-- LS-8/10, the ten defined instructions (R65). -/
inductive Instr where
  /-- LDI regA, immediate (format RI, R100). -/
  | ldi (regA imm : Byte)
  /-- PRN regA (format R, R101). -/
  | prn (regA : Byte)
  /-- HLT (format Z, R102). -/
  | hlt
  /-- ADD regA, regB (format RR, R111). -/
  | add (regA regB : Byte)
  /-- SUB regA, regB (format RR, R112). -/
  | sub (regA regB : Byte)
  /-- MUL regA, regB (format RR, R113). -/
  | mul (regA regB : Byte)
  /-- DIV regA, regB (format RR, R114). -/
  | div (regA regB : Byte)
  /-- CMP: the two operand bytes are compared as numbers (format RR, R115). -/
  | cmp (opA opB : Byte)
  /-- PUSH regA (format R, R132). -/
  | push (regA : Byte)
  /-- POP regA (format R, R133). -/
  | pop (regA : Byte)
deriving DecidableEq, Repr

end Sys2Proof
end

