-- ==== Sys2Proof/WellFormed.lean ====
section
/-! DEFINITION. Which instructions name only registers that exist (spec/60_exceptions.md R142: the operand bytes
that are checked as register indices). An ill-formed instruction still encodes, decodes and runs: it takes the
`RegisterFault` of R142. -/

namespace Sys2Proof

/-- A register index is in [0, 7], the whole operand byte, not masked (spec/10_state.md R23). -/
def validReg (a : Byte) : Bool := decide (a.toNat < 8)

/-- Every operand byte that R142 lists as checked is a register index in [0, 7]. LDI's immediate, CMP's two
numbers and HLT are not checked. -/
def Instr.wellFormed : Instr → Bool
  | .ldi a _ => validReg a
  | .prn a => validReg a
  | .hlt => true
  | .add a b => validReg a && validReg b
  | .sub a b => validReg a && validReg b
  | .mul a b => validReg a && validReg b
  | .div a b => validReg a && validReg b
  | .cmp _ _ => true
  | .push a => validReg a
  | .pop a => validReg a

end Sys2Proof
end

