-- ==== Sys2Proof/Decode.lean ====
section
/-! DEFINITION. Decoding, encoding and the length rule (spec/30_encoding.md R60 to R70, R74;
spec/40_execution_cycle.md R81 to R83). -/

namespace Sys2Proof

/-! The ten opcode bytes, as R65's binary column writes them (most significant bit first, R7). -/

def Opcode.ldi : Byte := 0b10000010
def Opcode.prn : Byte := 0b01000111
def Opcode.hlt : Byte := 0b00000001
def Opcode.add : Byte := 0b10100000
def Opcode.sub : Byte := 0b10100001
def Opcode.mul : Byte := 0b10100010
def Opcode.div : Byte := 0b10100011
def Opcode.cmp : Byte := 0b10100111
def Opcode.push : Byte := 0b01000101
def Opcode.pop : Byte := 0b01000110

/-- The opcode bytes with a defined behaviour (R65); each of the other 246 is an unknown opcode (R67). -/
def definedOpcodes : List Byte :=
  [Opcode.ldi, Opcode.prn, Opcode.hlt, Opcode.add, Opcode.sub, Opcode.mul, Opcode.div, Opcode.cmp,
   Opcode.push, Opcode.pop]

/-- `length = (opcode >> 6) + 1` (R62, R82), of any opcode byte, recognised or not: 1 to 4. -/
def instrLength (op : Byte) : Nat := (op >>> 6).toNat + 1

/-- The three bytes every fetch reads (R81), whatever the length. -/
structure Fetched where
  opcode : Byte
  operandA : Byte
  operandB : Byte
deriving DecidableEq, Repr

/-- The fetched bytes in ascending address order (R44, R60). -/
def Fetched.bytes (f : Fetched) : List Byte := [f.opcode, f.operandA, f.operandB]

/-- The first three bytes of a run of bytes, as a fetch takes them; bytes after them are not looked at. -/
def Fetched.ofBytes : List Byte → Option Fetched
  | op :: a :: b :: _ => some ⟨op, a, b⟩
  | _ => none

/-- Why a fetched word is no instruction: its opcode byte is none of the ten (R67). -/
inductive DecodeReject where
  | unknownOpcode (op : Byte)
deriving DecidableEq, Repr

/-- Dispatch by exact opcode value (R66, R83, R74): all eight bits of the opcode byte and nothing else select
the instruction. Operand bytes beyond the instruction's length are unused (R81). -/
def decode (f : Fetched) : Except DecodeReject Instr :=
  if f.opcode = Opcode.ldi then .ok (.ldi f.operandA f.operandB)
  else if f.opcode = Opcode.prn then .ok (.prn f.operandA)
  else if f.opcode = Opcode.hlt then .ok .hlt
  else if f.opcode = Opcode.add then .ok (.add f.operandA f.operandB)
  else if f.opcode = Opcode.sub then .ok (.sub f.operandA f.operandB)
  else if f.opcode = Opcode.mul then .ok (.mul f.operandA f.operandB)
  else if f.opcode = Opcode.div then .ok (.div f.operandA f.operandB)
  else if f.opcode = Opcode.cmp then .ok (.cmp f.operandA f.operandB)
  else if f.opcode = Opcode.push then .ok (.push f.operandA)
  else if f.opcode = Opcode.pop then .ok (.pop f.operandA)
  else .error (.unknownOpcode f.opcode)

/-- An instruction's opcode byte (R65). -/
def Instr.opcode : Instr → Byte
  | .ldi _ _ => Opcode.ldi
  | .prn _ => Opcode.prn
  | .hlt => Opcode.hlt
  | .add _ _ => Opcode.add
  | .sub _ _ => Opcode.sub
  | .mul _ _ => Opcode.mul
  | .div _ _ => Opcode.div
  | .cmp _ _ => Opcode.cmp
  | .push _ => Opcode.push
  | .pop _ => Opcode.pop

/-- An instruction's operand bytes in encoding order: formats Z, R, RR and RI (R61). -/
def Instr.operands : Instr → List Byte
  | .ldi a i => [a, i]
  | .prn a => [a]
  | .hlt => []
  | .add a b => [a, b]
  | .sub a b => [a, b]
  | .mul a b => [a, b]
  | .div a b => [a, b]
  | .cmp a b => [a, b]
  | .push a => [a]
  | .pop a => [a]

/-- The instruction's 1 to 3 bytes, opcode byte first, at consecutive ascending addresses (R60, R61). -/
def encode (i : Instr) : List Byte := i.opcode :: i.operands

/-- Byte `k` of an instruction whose bits are `w`, bit 0 the least significant bit of the first byte; bits at
and above `nbits` are 0. -/
def tableByte (nbits w k : Nat) : Byte := BitVec.ofNat 8 (w % 2 ^ nbits / 2 ^ (8 * k))

/-- The three bytes a fetch of that instruction reads. -/
def tableFetched (nbits w : Nat) : Fetched := ⟨tableByte nbits w 0, tableByte nbits w 1, tableByte nbits w 2⟩

/-- What the decoder reads from an instruction whose bits are `w`, numbered as spec/opcode_table.json numbers
them; none where the opcode byte is unknown. -/
def decodeTableWord (nbits w : Nat) : Option Instr := (decode (tableFetched nbits w)).toOption

end Sys2Proof
end

