-- ==== Sys2Proof/Config.lean ====
section
/-! DEFINITION. The constants of this hardware and the values of the parameters the spec leaves open
(spec/00_scope.md R5, R6). The sizes 8 (registers), 8 (bits) and 256 (cells) stand in the types and in
`Config.memSize`. -/

namespace Sys2Proof

/-- `MEMSIZE`: the number of memory cells, addresses 0 to 255 (R5, R40). -/
def Config.memSize : Nat := 256

/-- `SP_RESET`: the reset value of register 7 (R5, R38). -/
def Config.spReset : Byte := 244

/-- `PC_RESET` (R5, R38). -/
def Config.pcReset : PcWord := 0

/-- `FL_RESET` (R5, R38). -/
def Config.flReset : Byte := 0

/-- `RESET_GPR`, the reset values of R0 to R6, for the one reset state. DESIGN CHOICE (log 2, unsafe): R38
leaves the parameter open and recommends all zero. -/
def Config.resetGpr : Vector Byte 7 := #v[0, 0, 0, 0, 0, 0, 0]

/-- What a memory cell that nothing has written reads as: 0 (R55, R170). DESIGN CHOICE (log 3, unsafe): the
zero is the spec's own decision D8. -/
def Config.unlistedByte : Byte := 0

end Sys2Proof
end

