-- ==== Sys2Proof/Machine/State.lean ====
section
/-! DEFINITION. The whole state of one machine instance (spec/10_state.md R20 to R38), what stops a step, and the
state at reset. -/

namespace Sys2Proof.Machine

/-- The engine's run state (R31). These are not privilege levels (spec/60_exceptions.md R152). -/
inductive Mode where
  | ready
  | running
  | halted
  | faulted
deriving DecidableEq, Repr

/-- A fatal condition and its datum, as the state records it (R32; spec/60_exceptions.md R140 to R143). Raising
one is no stop of the model: the machine takes the fault and the step answers the Faulted state (R148). -/
inductive FaultRecord where
  /-- A memory access outside [0, 255]; `addr` is the offending address (R141). -/
  | addressingFault (addr : Nat)
  /-- A register index outside [0, 7]; `index` is the whole operand byte (R142). -/
  | registerFault (index : Byte)
  /-- DIV with divisor register value 0 (R143). -/
  | divisionByZero
deriving DecidableEq, Repr

/-- An event the core produces (R34). -/
inductive Event where
  /-- PRN hands the 8-bit value to the output sink (R101). -/
  | out (v : Byte)
  /-- The engine reports an opcode byte with no defined behaviour, met at that pc (R86). -/
  | unknown (op : Byte) (pc : PcWord)
deriving DecidableEq, Repr

/-- Memory's 256 cells (R33): the cells that do not read as `Config.unlistedByte`, by strictly rising
address (`Memory.wf` in Machine/Memory.lean says the form). -/
abbrev Memory := List Host.Cell

/-- Where the machine stops without a next state. No instruction raises one: the faults of the spec are next
states (R148). -/
inductive Fault where
  /-- Raised by `step` in Halted and in Faulted: the run has ended and there is no transition out
  (R31, R80; spec/60_exceptions.md R150). Safe: the machine has no step there. -/
  | runEnded (ended : Mode)
  /-- Raised by the host's load act when an image byte's address is above 255: a load failure, and no run
  begins (spec/70_reset_and_hazards.md R172; spec/20_memory.md R55). Safe: no claim about a run follows. -/
  | loadFailure (addr : Nat)
deriving DecidableEq, Repr

/-- What has no meaning in the model. -/
inductive Refusal where
  /-- Raised by an arm of `exec` whose instruction has no meaning yet; no arm of this model is one. Safe. -/
  | notModelled (mnemonic : String)
  /-- Raised by `step` in Ready: a step exists only when the mode is Running, and the host has not launched
  the machine yet (R80). Safe: the machine has no step there. -/
  | notLaunched
  /-- Raised by the host's acts load and launch outside Ready, to which no meaning is given
  (spec/70_reset_and_hazards.md R172; spec/93_implementation_defined.md U14). Safe. -/
  | hostActOutsideReady (now : Mode)
deriving DecidableEq, Repr

/-- The state tuple of R20, component by component; nothing else is state (R20, R30, R35, R37). -/
structure State where
  /-- The register file, R0 to R7; register 7 is the stack pointer by convention (R21, R22). -/
  x : Vector Byte 8
  /-- The program counter, 9 bits (R25 to R27). -/
  pc : PcWord
  /-- The flags byte: bit 0 Equal, bit 1 Greater-Than, bit 2 Less-Than (R28). -/
  fl : Byte
  /-- Memory (R33). -/
  mem : Memory
  /-- The engine's run state (R31). -/
  mode : Mode
  /-- `none` until a step raises a fault (R32). -/
  fault : Option FaultRecord
  /-- The event trace, oldest event first (R34). -/
  trace : List Event
deriving DecidableEq, Repr

/-- The machine when it is created, with the open parameter `RESET_GPR` as an argument (R6, R38, R170):
R7 is the reset stack pointer. Unwritten memory is zero by log 3. -/
def State.resetWith (gpr : Vector Byte 7) : State where
  x := gpr.push Config.spReset
  pc := Config.pcReset
  fl := Config.flReset
  mem := []
  mode := .ready
  fault := none
  trace := []

/-- The machine right after reset (R38, R170), R0 to R6 zero by log 2. -/
def State.reset : State := State.resetWith Config.resetGpr

end Sys2Proof.Machine
end

