-- ==== Sys2Proof/Machine/Memory.lean ====
section
/-! DEFINITION. Memory as plain data: one byte read and written at a Nat address, and the canonical form
(spec/20_memory.md R40 to R42, R46; spec/10_state.md R33). The address checks stand in Machine/Ops.lean. -/

namespace Sys2Proof.Machine

/-- The byte at an address; an unlisted address reads as `Config.unlistedByte` (R55, log 3). -/
def Memory.read : Memory → Nat → Byte
  | [], _ => Config.unlistedByte
  | c :: r, a => if c.1 = a then c.2 else Memory.read r a

/-- Drop the entry of an address, if there is one. -/
def Memory.erase : Memory → Nat → Memory
  | [], _ => []
  | c :: r, a => if c.1 = a then r else c :: Memory.erase r a

/-- Put an entry at its place in the rising order, over an older one. -/
def Memory.insert : Memory → Nat → Byte → Memory
  | [], a, v => [(a, v)]
  | c :: r, a, v =>
    if a < c.1 then (a, v) :: c :: r
    else if c.1 = a then (a, v) :: r
    else c :: Memory.insert r a v

/-- Store one byte, keeping the canonical form: the value an unlisted address reads as removes the entry. -/
def Memory.write (m : Memory) (a : Nat) (v : Byte) : Memory :=
  if v = Config.unlistedByte then Memory.erase m a else Memory.insert m a v

/-- The canonical form: addresses strictly rising and below 256, no entry equal to what an unlisted address
reads as. Equal memories are then equal lists. -/
def Memory.wf : Memory → Bool
  | [] => true
  | c :: r =>
    decide (c.1 < Config.memSize) && (c.2 != Config.unlistedByte) &&
      (r.all fun d => decide (c.1 < d.1)) && Memory.wf r

end Sys2Proof.Machine
end

