-- ==== Sys2Proof/Machine/Ops.lean ====
section
/-! DEFINITION. The named operations over registers, memory, the program counter, the trace and the run state:
the primitives of spec/00_scope.md R9, the stack primitives of spec/43_stack.md R130 and R131, the advance of
spec/40_execution_cycle.md R84 and the ONE shared fault entry of spec/60_exceptions.md R148. -/

namespace Sys2Proof.Machine

/-- `v mod 256`, the remainder in [0, 255] also of a negative number (R8): the one place where an exact result
becomes a byte. -/
def narrow (v : Int) : Byte := BitVec.ofInt 8 v

/-! ## Plain updates of one component -/

def State.setX (s : State) (i : Fin 8) (v : Byte) : State := { s with x := s.x.set i v }

def State.setFl (s : State) (v : Byte) : State := { s with fl := v }

def State.setMem (s : State) (m : Memory) : State := { s with mem := m }

/-- `emit e`: append to the trace (spec/10_state.md R34). -/
def State.emit (s : State) (e : Event) : State := { s with trace := s.trace ++ [e] }

/-- `pc <- pc + length` (R84, spec/10_state.md R26). Exact at every pc a fetch succeeds at: 253 + 4 is below
512 (R27; log 1). -/
def State.advance (s : State) (length : Nat) : State := { s with pc := s.pc + BitVec.ofNat 9 length }

/-- `mode <- Halted` (R85). -/
def State.halt (s : State) : State := { s with mode := .halted }

/-- Fault entry, the one place where a fault is taken (R148, R87): the mode and the fault record change and
nothing else does. The state given is the one before the step, so every fault is precise (R149). -/
def State.takeFault (s : State) (f : FaultRecord) : State := { s with mode := .faulted, fault := some f }

/-! ## Register access (spec/10_state.md R23): the index is a whole operand byte -/

/-- `x[i]`: the value, or `RegisterFault(i)` when i is not in [0, 7]. -/
def getReg (s : State) (i : Byte) : Except FaultRecord Byte :=
  if h : i.toNat < 8 then .ok s.x[i.toNat] else .error (.registerFault i)

/-- `x[i] <- v`: store `v mod 256`, or `RegisterFault(i)`. -/
def setReg (s : State) (i : Byte) (v : Int) : Except FaultRecord State :=
  if h : i.toNat < 8 then .ok (s.setX ⟨i.toNat, h⟩ (narrow v)) else .error (.registerFault i)

/-- `sp`, another name for `x[7]` (spec/10_state.md R22). -/
def State.sp (s : State) : Byte := s.x[7]

/-- `sp <- v`. -/
def State.setSp (s : State) (v : Byte) : State := s.setX 7 v

/-! ## Memory access (spec/20_memory.md R41, R42) -/

/-- `MemRead(addr, 1)`: the address is not reduced modulo 256. -/
def memRead (s : State) (addr : Nat) : Except FaultRecord Byte :=
  if addr < Config.memSize then .ok (Memory.read s.mem addr) else .error (.addressingFault addr)

/-- `MemWrite(addr, 1, v)`: store `v mod 256`. -/
def memWrite (s : State) (addr : Nat) (v : Int) : Except FaultRecord State :=
  if addr < Config.memSize then .ok (s.setMem (Memory.write s.mem addr (narrow v)))
  else .error (.addressingFault addr)

/-! ## The stack primitives -/

/-- The address PUSH stores to, and its new stack pointer: `(x[7] - 1) mod 256` (R130, R135). -/
def pushAddr (s : State) : Byte := narrow ((s.sp.toNat : Int) - 1)

/-- The address POP reads, before the increment (R131, R135). -/
def popAddr (s : State) : Byte := s.sp

/-- `pushStack(v)`: decrement SP, then write at the new SP (R130). -/
def pushStack (s : State) (v : Byte) : Except FaultRecord State :=
  memWrite (s.setSp (pushAddr s)) (pushAddr s).toNat v.toNat

/-- `popStack()`: read at SP, then increment SP (R131); the cell read keeps its contents. -/
def popStack (s : State) : Except FaultRecord (Byte × State) := do
  let v ← memRead s (popAddr s).toNat
  return (v, s.setSp (narrow ((s.sp.toNat : Int) + 1)))

/-! ## The end of a step -/

/-- What ends every instruction but HLT: its effect done, the pc advances by the length of its opcode byte
(R84); a fault in the effect is taken from the state before the step (R87, R148). -/
def complete (op : Byte) (s : State) (effect : Except FaultRecord State) : Host.Outcome State Fault Refusal :=
  match effect with
  | .ok t => .next (t.advance (instrLength op))
  | .error f => .next (s.takeFault f)

/-- The report of an unknown opcode (R86, R144): the event, then the advance by the opcode's own length bits;
nothing else changes. -/
def State.reportUnknown (s : State) (op : Byte) : State :=
  (s.emit (.unknown op s.pc)).advance (instrLength op)

end Sys2Proof.Machine
end

