-- ==== Sys2Proof/Machine/Operands.lean ====
section
/-! DEFINITION. The operand forms (spec/30_encoding.md R61, R63, R64; spec/42_alu.md R115; spec/60_exceptions.md
R142, R147). The stack's register-indirect form is `pushAddr` and `popAddr` in Machine/Ops.lean. -/

namespace Sys2Proof.Machine

/-- Format R: one source register, its index checked (R63, R142). -/
def regOperand (s : State) (a : Byte) : Except FaultRecord Byte := getReg s a

/-- Format RR: two source registers, read in the order operandA, operandB, so that the fault on operandA is
met first (R147); both reads precede any write (R116). -/
def regPair (s : State) (a b : Byte) : Except FaultRecord (Byte × Byte) := do
  let va ← getReg s a
  let vb ← getReg s b
  return (va, vb)

/-- A destination index checked before anything is written (POP: R133, decision D9). -/
def checkReg (a : Byte) : Except FaultRecord Unit :=
  if a.toNat < 8 then .ok () else .error (.registerFault a)

/-- LDI's immediate: the whole byte, unsigned, not scaled (R64). -/
def immediate (b : Byte) : Int := b.toNat

/-- CMP's operand: the operand byte itself as an unsigned number, no register access (R115). -/
def numberOperand (a : Byte) : Nat := a.toNat

end Sys2Proof.Machine
end

