-- ==== Sys2Proof/Machine/Flags.lean ====
section
/-! DEFINITION. The flags byte (spec/10_state.md R28, R29): its bits, and the one computation that writes it
(spec/42_alu.md R115). -/

namespace Sys2Proof.Machine

/-- `0b00000001`: Equal, bit 0. -/
def flagE : Byte := 0b00000001

/-- `0b00000010`: Greater-Than, bit 1. -/
def flagG : Byte := 0b00000010

/-- `0b00000100`: Less-Than, bit 2. -/
def flagL : Byte := 0b00000100

/-- The Equal bit of FL. -/
def State.equalBit (s : State) : Bool := s.fl.getLsbD 0

/-- The Greater-Than bit of FL. -/
def State.greaterBit (s : State) : Bool := s.fl.getLsbD 1

/-- The Less-Than bit of FL. -/
def State.lessBit (s : State) : Bool := s.fl.getLsbD 2

/-- The whole flags byte CMP writes, from the two OPERAND BYTES (R115; decisions D1, D2; log 4): G when the
first is greater, L when it is less; bits 7:3 are 0. -/
def cmpFlags (a b : Nat) : Byte :=
  if a = b then flagE else if b < a then flagG else flagL

end Sys2Proof.Machine
end

