-- ==== Sys2Proof/Machine/Alu.lean ====
section
/-! DEFINITION. The ALU (spec/42_alu.md): ADD, SUB, MUL, DIV and CMP. Results are exact integers; the register
write narrows them (R8, R117). -/

namespace Sys2Proof.Machine

/-- The shape of ADD, SUB, MUL and DIV (R110): both registers read, the result or fault of `f`, the result
written to `x[a]`. -/
def aluRegister (f : Byte → Byte → Except FaultRecord Int) (a b : Byte) (s : State) :
    Except FaultRecord State := do
  let v ← regPair s a b
  let r ← f v.1 v.2
  setReg s a r

def aluAdd (va vb : Byte) : Except FaultRecord Int := .ok ((va.toNat : Int) + vb.toNat)

def aluSub (va vb : Byte) : Except FaultRecord Int := .ok ((va.toNat : Int) - vb.toNat)

def aluMul (va vb : Byte) : Except FaultRecord Int := .ok ((va.toNat : Int) * vb.toNat)

/-- Floor division; a zero divisor is the fault, whatever the dividend (R114, R143). -/
def aluDiv (va vb : Byte) : Except FaultRecord Int :=
  if vb.toNat = 0 then .error .divisionByZero else .ok ((va.toNat / vb.toNat : Nat) : Int)

/-- ADD (R111). -/
def execAdd (a b : Byte) (s : State) : Host.Outcome State Fault Refusal :=
  complete Opcode.add s (aluRegister aluAdd a b s)

/-- SUB (R112). -/
def execSub (a b : Byte) (s : State) : Host.Outcome State Fault Refusal :=
  complete Opcode.sub s (aluRegister aluSub a b s)

/-- MUL (R113). -/
def execMul (a b : Byte) (s : State) : Host.Outcome State Fault Refusal :=
  complete Opcode.mul s (aluRegister aluMul a b s)

/-- DIV (R114). -/
def execDiv (a b : Byte) (s : State) : Host.Outcome State Fault Refusal :=
  complete Opcode.div s (aluRegister aluDiv a b s)

/-- CMP (R115): the flags of the two operand bytes; no register is read and no fault can be raised
(decision D3; log 4). -/
def execCmp (a b : Byte) (s : State) : Host.Outcome State Fault Refusal :=
  complete Opcode.cmp s (.ok (s.setFl (cmpFlags (numberOperand a) (numberOperand b))))

end Sys2Proof.Machine
end

