-- ==== Sys2Proof/Machine/LdiPrnHlt.lean ====
section
/-! DEFINITION. LDI, PRN and HLT (spec/41_ldi_prn_hlt.md). -/

namespace Sys2Proof.Machine

/-- LDI (R100): `x[a] <- immediate`. -/
def execLdi (a imm : Byte) (s : State) : Host.Outcome State Fault Refusal :=
  complete Opcode.ldi s (setReg s a (immediate imm))

/-- PRN (R101): `v <- x[a]; emit Out(v)`. -/
def execPrn (a : Byte) (s : State) : Host.Outcome State Fault Refusal :=
  complete Opcode.prn s do
    let v ← regOperand s a
    return s.emit (.out v)

/-- HLT (R102, R85): no effect, the advance, then `mode <- Halted` (decision D12; log 8). -/
def execHlt (s : State) : Host.Outcome State Fault Refusal :=
  .next (s.advance (instrLength Opcode.hlt)).halt

end Sys2Proof.Machine
end

