-- ==== Sys2Proof/Machine/Stack.lean ====
section
/-! DEFINITION. PUSH and POP (spec/43_stack.md R132, R133). -/

namespace Sys2Proof.Machine

/-- PUSH (R132): the value is read before the decrement, so PUSH R7 stores the old SP (decision D11; log 7). -/
def execPush (a : Byte) (s : State) : Host.Outcome State Fault Refusal :=
  complete Opcode.push s do
    let v ← regOperand s a
    pushStack s v

/-- POP (R133): the index is checked first (decision D9; log 6); the register write follows the increment, so
POP R7 leaves the popped byte in R7 (decision D11; log 7). -/
def execPop (a : Byte) (s : State) : Host.Outcome State Fault Refusal :=
  complete Opcode.pop s do
    checkReg a
    let p ← popStack s
    setReg p.2 a p.1.toNat

end Sys2Proof.Machine
end

