-- ==== Sys2Proof/Machine/Cycle.lean ====
section
/-! DEFINITION. The fetch-decode-execute cycle (spec/40_execution_cycle.md R80 to R88). -/

namespace Sys2Proof.Machine

/-- The three reads of every fetch, in this order, each checked (R81). Memory is read afresh at every step
(spec/20_memory.md R53); the address sums are exact. -/
def fetch (s : State) : Except FaultRecord Fetched := do
  let op ← memRead s s.pc.toNat
  let a ← memRead s (s.pc.toNat + 1)
  let b ← memRead s (s.pc.toNat + 2)
  return ⟨op, a, b⟩

/-- One pass of the loop in Running (R88): a fault in the fetch is taken; a defined opcode is executed; an
unknown opcode is reported and skipped (R86). -/
def engineStep (s : State) : Host.Outcome State Fault Refusal :=
  match fetch s with
  | .error f => .next (s.takeFault f)
  | .ok f =>
    match decode f with
    | .ok i => exec i s
    | .error (.unknownOpcode op) => .next (s.reportUnknown op)

/-- A step exists only in Running (R80): in Ready the host has not launched the machine, in Halted and Faulted
the run has ended (R31, R150; log 10). -/
def cycle (s : State) : Host.Outcome State Fault Refusal :=
  match s.mode with
  | .ready => .refused .notLaunched
  | .running => engineStep s
  | .halted => .fault (.runEnded .halted)
  | .faulted => .fault (.runEnded .faulted)

/-- One byte stored at an address of Memory; no cell exists above 255. -/
def placeByte (m : Memory) (addr : Nat) (v : Byte) : Memory :=
  if addr < Config.memSize then Memory.write m addr v else m

/-- The instruction's three bytes where the next fetch reads them, and the machine launched (log 11). -/
def placeFetched (s : State) (f : Fetched) : State :=
  { s with
    mem := placeByte (placeByte (placeByte s.mem s.pc.toNat f.opcode) (s.pc.toNat + 1) f.operandA)
      (s.pc.toNat + 2) f.operandB
    mode := .running }

end Sys2Proof.Machine
end

