-- ==== Sys2Proof/Machine/Step.lean ====
section
/-! DEFINITION. One step, and the placing of one instruction where the next step fetches it. -/

namespace Sys2Proof.Machine

/-- One step of the machine (spec/40_execution_cycle.md R88): `cycle` of Machine/Cycle.lean. -/
def step (s : State) : Host.Outcome State Fault Refusal := cycle s

/-- `s` with the instruction whose bits are `w` stored at the pc and the mode Running, as after the host's
load and launch (spec/70_reset_and_hazards.md R171; log 11). -/
def State.withFetchWord (s : State) (nbits w : Nat) : State := placeFetched s (tableFetched nbits w)

end Sys2Proof.Machine
end

