-- ==== Sys2Proof/Machine/HostView.lean ====
section
/-! DEFINITION. The host's side of the block (spec/10_state.md R36; spec/70_reset_and_hazards.md R170 to R172):
load, launch, what the trace holds for the output sink, the fault codes, and the read-only debug view. No
instruction reaches any of it. -/

namespace Sys2Proof.Machine

/-- load: in Ready the host writes one byte; the literal is reduced modulo 256 by the write
(spec/20_memory.md R42, R55; D24). An address above 255 is a load failure, and no run begins (R172). -/
def State.hostLoad (s : State) (addr literal : Nat) : Host.Outcome State Fault Refusal :=
  match s.mode with
  | .ready =>
    match memWrite s addr literal with
    | .ok t => .next t
    | .error _ => .fault (.loadFailure addr)
  | .running => .refused (.hostActOutsideReady .running)
  | .halted => .refused (.hostActOutsideReady .halted)
  | .faulted => .refused (.hostActOutsideReady .faulted)

/-- The Loader's writes at consecutive addresses from `addr` (spec/20_memory.md R55). -/
def State.loadFrom (s : State) (addr : Nat) : List Nat → Host.Outcome State Fault Refusal
  | [] => .next s
  | v :: vs =>
    match s.hostLoad addr v with
    | .next t => State.loadFrom t (addr + 1) vs
    | .fault r => .fault r
    | .refused r => .refused r

/-- `IMAGE` written to consecutive addresses starting at 0 (R55). -/
def State.loadImage (s : State) (image : List Nat) : Host.Outcome State Fault Refusal := s.loadFrom 0 image

/-- launch: the host invokes `run()` in Ready; `mode <- Running` (spec/10_state.md R31, R36). -/
def State.launch (s : State) : Host.Outcome State Fault Refusal :=
  match s.mode with
  | .ready => .next { s with mode := .running }
  | .running => .refused (.hostActOutsideReady .running)
  | .halted => .refused (.hostActOutsideReady .halted)
  | .faulted => .refused (.hostActOutsideReady .faulted)

/-- The boot sequence of R171: reset, load the image, launch; the launch parameters are `RESET_GPR` and `IMAGE`
(spec/00_scope.md R6). -/
def boot (gpr : Vector Byte 7) (image : List Nat) : Host.Outcome State Fault Refusal :=
  match (State.resetWith gpr).loadImage image with
  | .next s => s.launch
  | .fault r => .fault r
  | .refused r => .refused r

/-- The trace projected onto its `Out` events: what the output sink received, in order (spec/10_state.md R34). -/
def State.outs (s : State) : List Byte :=
  s.trace.filterMap fun
    | .out v => some v
    | .unknown _ _ => none

/-- The sink's rendering of one value: the decimal numeral, no leading zeros, then one line feed
(spec/41_ldi_prn_hlt.md R101; D18). -/
def renderOut (v : Byte) : List Char := Nat.toDigits 10 v.toNat ++ ['\n']

/-- The text the sink makes of a run's output. -/
def State.stdoutText (s : State) : List Char := s.outs.flatMap renderOut

/-- The optional numeric codes of the faults (spec/60_exceptions.md R140; D15); nothing in the hardware reads
them. -/
def FaultRecord.code : FaultRecord → Nat
  | .addressingFault _ => 1
  | .registerFault _ => 2
  | .divisionByZero => 3

/-- The read-only debug view (spec/60_exceptions.md R156). It does not show FL. -/
structure DebugView where
  pc : PcWord
  /-- `mem[pc]`, `mem[pc+1]`, `mem[pc+2]`; none where there is no such cell (log 12). -/
  bytes : List (Option Byte)
  x : Vector Byte 8
deriving DecidableEq, Repr

/-- The cell at an address, for the view: never a fault. -/
def viewByte (s : State) (addr : Nat) : Option Byte := (memRead s addr).toOption

/-- The debug view of a state; taking it changes no state and is no step (R156). -/
def State.debugView (s : State) : DebugView :=
  ⟨s.pc, [viewByte s s.pc.toNat, viewByte s (s.pc.toNat + 1), viewByte s (s.pc.toNat + 2)], s.x⟩

end Sys2Proof.Machine
end

