-- ==== Sys2Proof/Safety.lean ====
section
/-! DEFINITION. What the machine keeps at every step, and what counts as a run's end and as a safe run, in the
terms claims use. -/

namespace Sys2Proof.Machine

/-- The data a recorded fault can hold (spec/10_state.md R32; spec/60_exceptions.md R140, R141). -/
def FaultRecord.legal : FaultRecord → Prop
  | .addressingFault addr => addr = 256 ∨ addr = 257
  | .registerFault index => 8 ≤ index.toNat
  | .divisionByZero => True

/-- An `Unknown` event names an undefined opcode byte and a pc at which the fetch succeeded
(spec/40_execution_cycle.md R81, R86). -/
def Event.legal : Event → Prop
  | .out _ => True
  | .unknown op pc => op ∉ definedOpcodes ∧ pc.toNat ≤ 253

/-- The relations between the fields of the state that hold at reset and that every step keeps. -/
structure MachineInv (s : State) : Prop where
  /-- Memory is in its canonical form. -/
  memCanonical : Memory.wf s.mem = true
  /-- The values pc can take are 0 to 257 (spec/10_state.md R27). -/
  pcInRange : s.pc.toNat ≤ 257
  /-- FL is 0 before any CMP and 1, 2 or 4 after one (spec/10_state.md R28). -/
  flLegal : s.fl = 0 ∨ s.fl = 1 ∨ s.fl = 2 ∨ s.fl = 4
  /-- The fault record is written by fault entry and by nothing else (spec/10_state.md R32). -/
  faultIffFaulted : s.fault ≠ none ↔ s.mode = .faulted
  faultLegal : ∀ f, s.fault = some f → f.legal
  traceLegal : ∀ e ∈ s.trace, e.legal

/-- The three bytes at the pc (spec/40_execution_cycle.md R81), as Memory holds them. -/
def State.fetched (s : State) : Fetched :=
  ⟨Memory.read s.mem s.pc.toNat, Memory.read s.mem (s.pc.toNat + 1), Memory.read s.mem (s.pc.toNat + 2)⟩

/-- The registers an instruction may write (spec/10_state.md R24, the Writes column). -/
def writtenRegs : Instr → List Nat
  | .ldi a _ => [a.toNat]
  | .prn _ => []
  | .hlt => []
  | .add a _ => [a.toNat]
  | .sub a _ => [a.toNat]
  | .mul a _ => [a.toNat]
  | .div a _ => [a.toNat]
  | .cmp _ _ => []
  | .push _ => [7]
  | .pop a => [7, a.toNat]

/-- The run has ended (spec/70_reset_and_hazards.md R181). -/
def State.ended (s : State) : Prop := s.mode = .halted ∨ s.mode = .faulted

/-- `k` completed steps from `s` lead to `t`. -/
def Reaches (k : Nat) (s t : State) : Prop := Sys2Proof.core.run k s = .next t

/-- A safe run: it reaches Halted, so no fault was raised on the way. -/
def SafeRun (s : State) : Prop := ∃ k t, Reaches k s t ∧ t.mode = .halted

end Sys2Proof.Machine
end

