-- ==== Sys2Proof/Certificates/Slice0/Obligations.lean ====
section
/-! DEFINITION. The statements for the provers. A fault is written out as the state R148 gives: the state before
the step with `mode` and `fault` changed. `s.fetched` is the three bytes at the pc. "log n" is
notes/assumptions/n.md; "D n" is a decision of spec/92_eei_decisions.md. -/

open Sys2Proof Sys2Proof.Machine

/-! ## Reset and the invariant -/

/-- spec/10_state.md section 9: pc, fl and SP as DOC0 states them, mode Ready, no fault, empty trace, whatever
`RESET_GPR` is; memory all zero is the spec's decision (log 3, D8). That the one reset state takes zero for R0 to
R6 is the model's choice (log 2, D7). -/
def Obligations.ResetHoldsTheResetValues : Prop :=
  (∀ gpr : Vector Byte 7, (State.resetWith gpr).pc = 0 ∧ (State.resetWith gpr).fl = 0 ∧
    (State.resetWith gpr).x[7] = 244 ∧ (∀ (k : Nat) (h : k < 7), (State.resetWith gpr).x[k] = gpr[k]) ∧
    (State.resetWith gpr).mode = .ready ∧ (State.resetWith gpr).fault = none ∧
    (State.resetWith gpr).trace = [] ∧ ∀ addr, Memory.read (State.resetWith gpr).mem addr = 0) ∧
  State.reset = State.resetWith #v[0, 0, 0, 0, 0, 0, 0]

/-- The invariant of Safety.lean holds in the reset state. -/
def Obligations.ResetMeetsTheInvariant : Prop := MachineInv State.reset

/-- Every step keeps the invariant: canonical memory, pc at most 257 (R27), FL one of 0, 1, 2, 4 (R28), a fault
record exactly in Faulted and with a legal datum (R32, R140), and only legal Unknown events. The range of the pc
and the addresses 256 and 257 rest on decisions D4 and D5 (logs 5 and 1), the fault data on D15 (log 15), the
events on D14 (log 9). -/
def Obligations.EveryStepKeepsTheInvariant : Prop :=
  ∀ s t : State, MachineInv s → step s = .next t → MachineInv t

/-- From a booted image, with any reset values of R0 to R6, every state of the run meets the invariant; so a run that ends in Halted ends without
a fault record (R181). A corollary of the step lemma above; it rests on the same decisions. -/
def Obligations.EveryRunFromBootMeetsTheInvariant : Prop :=
  ∀ (gpr : Vector Byte 7) (image : List Nat) (s t : State) (k : Nat), boot gpr image = .next s → Reaches k s t →
    MachineInv t ∧ (t.mode = .halted → t.fault = none)

/-! ## Encoding -/

/-- Decoding the bytes of any instruction, followed by any bytes, gives the instruction back: every operand at
every value of its byte (R60, R61, R63, R64). -/
def Obligations.DecodeOfEncodeGivesTheInstructionBack : Prop :=
  ∀ (i : Instr) (rest : List Byte) (f : Fetched), Fetched.ofBytes (encode i ++ rest) = some f → decode f = .ok i

/-- The other direction: an accepted word's bytes, as many as the length rule gives, are the encoding of the
instruction decoded. -/
def Obligations.EncodeOfDecodeGivesTheFetchedBytes : Prop :=
  ∀ (f : Fetched) (i : Instr), decode f = .ok i → encode i = f.bytes.take (instrLength f.opcode)

/-- R66: dispatch is by the exact opcode byte. Two words that select the same instruction have the same opcode
byte, bit for bit, and the operand bytes play no part in selecting it. -/
def Obligations.DispatchIsByExactOpcodeByte : Prop :=
  (∀ (f g : Fetched) (i j : Instr), decode f = .ok i → decode g = .ok j → i.opcode = j.opcode →
      f.opcode = g.opcode) ∧
    (∀ (f g : Fetched) (i : Instr), decode f = .ok i → g.opcode = f.opcode →
      ∃ j, decode g = .ok j ∧ j.opcode = i.opcode)

/-- Exactly the opcode bytes outside the ten of R65 are unknown, and an unknown byte is rejected under its own
value (R67). -/
def Obligations.UnknownOpcodesAreExactlyTheUndefinedBytes : Prop :=
  ∀ f : Fetched, decode f = .error (.unknownOpcode f.opcode) ↔
    f.opcode ∉ ([0x82, 0x47, 0x01, 0xA0, 0xA1, 0xA2, 0xA3, 0xA7, 0x45, 0x46] : List Byte)

/-- A few words written out from R65 decode to the instructions they stand for. -/
def Obligations.SpecWordsDecodeToTheirInstructions : Prop :=
  decode ⟨0b10000010, 0b00000000, 0b00001000⟩ = .ok (.ldi 0 8) ∧
    decode ⟨0b01000111, 0b00000000, 0b00000001⟩ = .ok (.prn 0) ∧
    decode ⟨0b10100011, 0b00000000, 0b00000001⟩ = .ok (.div 0 1) ∧
    decode ⟨0b10100111, 0b11001000, 0b00000011⟩ = .ok (.cmp 200 3) ∧
    decode ⟨0b01000110, 0b00000001, 0b00000001⟩ = .ok (.pop 1) ∧
    decode ⟨0b10100100, 0b00000000, 0b00000001⟩ = .error (.unknownOpcode 0xA4)

/-! ## The step -/

/-- R88: when the mode is Running, the fetch succeeds (pc at most 253) and the bytes at the pc decode to an
instruction, the step is that instruction's meaning at that state and nothing is added around it: the meaning
itself advances the pc. -/
def Obligations.StepRunsTheDecodedInstruction : Prop :=
  ∀ (s : State) (i : Instr), s.mode = .running → s.pc.toNat ≤ 253 → decode s.fetched = .ok i → step s = exec i s

/-- The table of R81 (decision D4, log 5): with the pc above 253 the fetch raises AddressingFault with the first
address above 255, whatever bytes stand at 254 and 255: 256 for pc 254, 255 and 256, and 257 for pc 257. -/
def Obligations.FetchAbove253RaisesAddressingFault : Prop :=
  ∀ s : State, s.mode = .running → 253 < s.pc.toNat →
    step s = .next { s with mode := .faulted, fault := some (.addressingFault (max 256 s.pc.toNat)) }

/-- R86 (the event's form is decision D14, log 9; length 4 is D6, log 13): an unknown opcode byte is reported once, with
its address, and the pc advances by the byte's own top two bits plus 1; the state is otherwise unchanged and
the mode stays Running. -/
def Obligations.UnknownOpcodeIsReportedAndSkipped : Prop :=
  ∀ s : State, s.mode = .running → s.pc.toNat ≤ 253 →
    s.fetched.opcode ∉ ([0x82, 0x47, 0x01, 0xA0, 0xA1, 0xA2, 0xA3, 0xA7, 0x45, 0x46] : List Byte) →
    step s = .next { s with
      trace := s.trace ++ [.unknown s.fetched.opcode s.pc]
      pc := s.pc + BitVec.ofNat 9 (s.fetched.opcode.toNat / 64 + 1) }

/-- R80, R89: a step exists exactly in Running, and there it always answers a next state. What the model answers
elsewhere is its own choice (log 10): a refusal in Ready, the end of the run in Halted and Faulted. -/
def Obligations.AStepExistsExactlyInRunning : Prop :=
  ∀ s : State, ((∃ t, step s = .next t) ↔ s.mode = .running) ∧
    (s.mode = .ready → step s = .refused .notLaunched) ∧
    (s.mode = .halted ∨ s.mode = .faulted → step s = .fault (.runEnded s.mode))

/-- R26 and R62: after every dispatched opcode byte, recognised or not, the pc is larger by opcode[7:6] + 1, an
exact sum; a faulting instruction leaves it. There is no other way for the pc to change. Length 4 for top bits 11
is decision D6 (log 13), HLT's advance is D12 (log 8), the pc kept in Faulted is D13 (log 6). -/
def Obligations.PcAdvancesByTheOpcodesOwnLength : Prop :=
  ∀ s t : State, step s = .next t →
    (t.mode = .faulted ∧ t.pc = s.pc) ∨
      (t.mode ≠ .faulted ∧ t.pc.toNat = s.pc.toNat + ((s.fetched.opcode.extractLsb' 6 2).toNat + 1))

/-- The transitions out of Running of R31 (D16): a step never answers Ready; it answers Halted exactly when the
fetch succeeded on the HLT byte, in Faulted the record holds a fault, and in Running the pc has grown. That the
fetch succeeds only up to pc 253 is decision D4 (log 5). -/
def Obligations.ModeChangesOnlyByHaltAndFault : Prop :=
  ∀ s t : State, step s = .next t →
    t.mode ≠ .ready ∧
      (t.mode = .halted ↔ s.pc.toNat ≤ 253 ∧ s.fetched.opcode = 0x01) ∧
      (t.mode = .faulted → t.fault ≠ none) ∧ (t.mode = .running → s.pc.toNat < t.pc.toNat)

/-! ## LDI, PRN, HLT -/

/-- R100, whole: the encoding, the effect and the frame for a valid register, and RegisterFault with no
register changed and the pc not advanced for an index in [8, 255]. The immediate may be any byte. -/
def Obligations.LdiLoadsTheImmediate : Prop :=
  ∀ (s : State) (a v : Byte),
    decode ⟨0b10000010, a, v⟩ = .ok (.ldi a v) ∧
      (∀ h : a.toNat < 8, exec (.ldi a v) s = .next { s with x := s.x.set a.toNat v, pc := s.pc + 3 }) ∧
      (8 ≤ a.toNat →
        exec (.ldi a v) s = .next { s with mode := .faulted, fault := some (.registerFault a) })

/-- R101 (the text is decision D18, log 9): the register's value is appended to the trace as one Out event and
nothing but the pc changes beside it; an index in [8, 255] faults and emits nothing. -/
def Obligations.PrnEmitsTheRegister : Prop :=
  ∀ (s : State) (a b : Byte),
    decode ⟨0b01000111, a, b⟩ = .ok (.prn a) ∧
      (∀ h : a.toNat < 8,
        exec (.prn a) s = .next { s with trace := s.trace ++ [.out s.x[a.toNat]], pc := s.pc + 2 }) ∧
      (8 ≤ a.toNat →
        exec (.prn a) s = .next { s with mode := .faulted, fault := some (.registerFault a) })

/-- R102 and R85: HLT advances the pc by 1 and halts; it changes nothing else. That the pc advances is decision
D12 (log 8). -/
def Obligations.HltAdvancesThenHalts : Prop :=
  ∀ (s : State) (a b : Byte),
    decode ⟨0b00000001, a, b⟩ = .ok .hlt ∧ exec .hlt s = .next { s with pc := s.pc + 1, mode := .halted }

/-! ## The ALU -/

/-- R111, whole. -/
def Obligations.AddWritesTheSumModulo256 : Prop :=
  ∀ (s : State) (a b : Byte),
    decode ⟨0b10100000, a, b⟩ = .ok (.add a b) ∧
      (∀ (ha : a.toNat < 8) (hb : b.toNat < 8), ∃ v : Byte,
        v.toNat = (s.x[a.toNat].toNat + s.x[b.toNat].toNat) % 256 ∧
          exec (.add a b) s = .next { s with x := s.x.set a.toNat v, pc := s.pc + 3 }) ∧
      (8 ≤ a.toNat →
        exec (.add a b) s = .next { s with mode := .faulted, fault := some (.registerFault a) }) ∧
      (a.toNat < 8 → 8 ≤ b.toNat →
        exec (.add a b) s = .next { s with mode := .faulted, fault := some (.registerFault b) })

/-- R112, whole: the remainder of the difference, also of a negative one (R8). -/
def Obligations.SubWritesTheDifferenceModulo256 : Prop :=
  ∀ (s : State) (a b : Byte),
    decode ⟨0b10100001, a, b⟩ = .ok (.sub a b) ∧
      (∀ (ha : a.toNat < 8) (hb : b.toNat < 8), ∃ v : Byte,
        (v.toNat : Int) = ((s.x[a.toNat].toNat : Int) - s.x[b.toNat].toNat) % 256 ∧
          exec (.sub a b) s = .next { s with x := s.x.set a.toNat v, pc := s.pc + 3 }) ∧
      (8 ≤ a.toNat →
        exec (.sub a b) s = .next { s with mode := .faulted, fault := some (.registerFault a) }) ∧
      (a.toNat < 8 → 8 ≤ b.toNat →
        exec (.sub a b) s = .next { s with mode := .faulted, fault := some (.registerFault b) })

/-- R113, whole. -/
def Obligations.MulWritesTheProductModulo256 : Prop :=
  ∀ (s : State) (a b : Byte),
    decode ⟨0b10100010, a, b⟩ = .ok (.mul a b) ∧
      (∀ (ha : a.toNat < 8) (hb : b.toNat < 8), ∃ v : Byte,
        v.toNat = s.x[a.toNat].toNat * s.x[b.toNat].toNat % 256 ∧
          exec (.mul a b) s = .next { s with x := s.x.set a.toNat v, pc := s.pc + 3 }) ∧
      (8 ≤ a.toNat →
        exec (.mul a b) s = .next { s with mode := .faulted, fault := some (.registerFault a) }) ∧
      (a.toNat < 8 → 8 ≤ b.toNat →
        exec (.mul a b) s = .next { s with mode := .faulted, fault := some (.registerFault b) })

/-- R114: the floor of the quotient for a divisor of at least 1; a zero divisor raises DivisionByZero whatever
the dividend. The order of the three faults is decision D10 (log 6). -/
def Obligations.DivWritesTheFloorOrFaults : Prop :=
  ∀ (s : State) (a b : Byte),
    decode ⟨0b10100011, a, b⟩ = .ok (.div a b) ∧
      (∀ (ha : a.toNat < 8) (hb : b.toNat < 8), s.x[b.toNat].toNat ≠ 0 → ∃ v : Byte,
        v.toNat = s.x[a.toNat].toNat / s.x[b.toNat].toNat ∧
          exec (.div a b) s = .next { s with x := s.x.set a.toNat v, pc := s.pc + 3 }) ∧
      (∀ (_ : a.toNat < 8) (hb : b.toNat < 8), s.x[b.toNat].toNat = 0 →
        exec (.div a b) s = .next { s with mode := .faulted, fault := some .divisionByZero }) ∧
      (8 ≤ a.toNat →
        exec (.div a b) s = .next { s with mode := .faulted, fault := some (.registerFault a) }) ∧
      (a.toNat < 8 → 8 ≤ b.toNat →
        exec (.div a b) s = .next { s with mode := .faulted, fault := some (.registerFault b) })

/-- R115, with decisions D1, D2 and D3 (log 4): CMP overwrites the whole flags byte from the two OPERAND BYTES,
any of [0, 255], reads and writes no register and raises no fault; exactly one of the bits E, G, L is set. -/
def Obligations.CmpComparesTheOperandBytes : Prop :=
  ∀ (s : State) (a b : Byte),
    decode ⟨0b10100111, a, b⟩ = .ok (.cmp a b) ∧ ∃ t : State,
      exec (.cmp a b) s = .next t ∧ t = { s with fl := t.fl, pc := s.pc + 3 } ∧
        t.fl.toNat < 8 ∧
        (t.equalBit = true ↔ a.toNat = b.toNat) ∧ (t.greaterBit = true ↔ b.toNat < a.toNat) ∧
        (t.lessBit = true ↔ a.toNat < b.toNat)

/-- R110: the ALU is a pure function of the opcode, the two indices and the register file. Two states with the
same registers, whatever else differs, get the same new register file, the same new flags byte (CMP) or the
same fault, and nothing else of either state changes but the pc's advance. The five are selected by their
exact opcode values. That CMP completes for all bytes a and b, never with a RegisterFault, is decision D3
(log 4). -/
def Obligations.AluDependsOnTheRegisterFileAlone : Prop :=
  ∀ (s u : State) (a b : Byte), s.x = u.x →
    (∀ p ∈ [((0xA0 : Byte), Instr.add a b), (0xA1, .sub a b), (0xA2, .mul a b), (0xA3, .div a b), (0xA7, .cmp a b)],
      decode ⟨p.1, a, b⟩ = .ok p.2) ∧
    (∀ i ∈ [Instr.add a b, Instr.sub a b, Instr.mul a b, Instr.div a b],
      (∃ r : Vector Byte 8, exec i s = .next { s with x := r, pc := s.pc + 3 } ∧
          exec i u = .next { u with x := r, pc := u.pc + 3 } ∧
          ∀ (k : Nat) (h : k < 8), k ≠ a.toNat → r[k] = s.x[k]) ∨
        (∃ f : FaultRecord,
          (f = .registerFault a ∨ f = .registerFault b ∨ (f = .divisionByZero ∧ i = .div a b)) ∧
          exec i s = .next { s with mode := .faulted, fault := some f } ∧
          exec i u = .next { u with mode := .faulted, fault := some f })) ∧
      (∃ fl : Byte, exec (.cmp a b) s = .next { s with fl := fl, pc := s.pc + 3 } ∧
        exec (.cmp a b) u = .next { u with fl := fl, pc := u.pc + 3 })

/-- R116 (decision D22, log 18): the same register twice. Both reads precede the write. -/
def Obligations.SameRegisterTwiceIsReadBeforeTheWrite : Prop :=
  ∀ (s : State) (n : Byte) (h : n.toNat < 8),
    (∃ v : Byte, v.toNat = 2 * s.x[n.toNat].toNat % 256 ∧
      exec (.add n n) s = .next { s with x := s.x.set n.toNat v, pc := s.pc + 3 }) ∧
    exec (.sub n n) s = .next { s with x := s.x.set n.toNat 0, pc := s.pc + 3 } ∧
    (∃ v : Byte, v.toNat = s.x[n.toNat].toNat ^ 2 % 256 ∧
      exec (.mul n n) s = .next { s with x := s.x.set n.toNat v, pc := s.pc + 3 }) ∧
    (s.x[n.toNat] ≠ 0 → exec (.div n n) s = .next { s with x := s.x.set n.toNat 1, pc := s.pc + 3 }) ∧
    (s.x[n.toNat] = 0 →
      exec (.div n n) s = .next { s with mode := .faulted, fault := some .divisionByZero }) ∧
    exec (.cmp n n) s = .next { s with fl := 0b00000001, pc := s.pc + 3 }

/-- R117, its note on signed numbers: seen as two's complement, ADD, SUB and MUL write the low 8 bits of the
signed result. -/
def Obligations.AddSubMulAgreeWithSignedArithmetic : Prop :=
  ∀ (s : State) (a b : Byte) (ha : a.toNat < 8) (hb : b.toNat < 8),
    exec (.add a b) s = .next { s with
      x := s.x.set a.toNat (BitVec.ofInt 8 (s.x[a.toNat].toInt + s.x[b.toNat].toInt)), pc := s.pc + 3 } ∧
    exec (.sub a b) s = .next { s with
      x := s.x.set a.toNat (BitVec.ofInt 8 (s.x[a.toNat].toInt - s.x[b.toNat].toInt)), pc := s.pc + 3 } ∧
    exec (.mul a b) s = .next { s with
      x := s.x.set a.toNat (BitVec.ofInt 8 (s.x[a.toNat].toInt * s.x[b.toNat].toInt)), pc := s.pc + 3 }

/-! ## Memory and the stack -/

/-- R42: a write in [0, 255] stores the value mod 256 at its address and changes nothing else; outside it is an
AddressingFault. Inside the engine (pushStack) a write never faults and never truncates. -/
def Obligations.MemWriteStoresTheValueModulo256 : Prop :=
  ∀ (s : State), Memory.wf s.mem = true →
    (∀ (addr : Nat) (v : Int), addr ≤ 255 → ∃ t : State,
      memWrite s addr v = .ok t ∧ t = { s with mem := t.mem } ∧
        (∃ b : Byte, memRead t addr = .ok b ∧ (b.toNat : Int) = v % 256) ∧
        ∀ other, other ≠ addr → memRead t other = memRead s other) ∧
    (∀ (addr : Nat) (v : Int), 255 < addr → memWrite s addr v = .error (.addressingFault addr)) ∧
    (∀ v : Byte, ∃ t : State, pushStack s v = .ok t ∧ Memory.read t.mem (pushAddr s).toNat = v)

/-- R130: SP is decremented by 1 modulo 256 and the value written at the new SP; it never faults, also when SP
is 0, where the address is 255. -/
def Obligations.PushStackStoresBelowTheStackPointer : Prop :=
  ∀ (s : State) (v : Byte), Memory.wf s.mem = true → ∃ (t : State) (sp : Byte),
    pushStack s v = .ok t ∧ sp.toNat = (s.x[7].toNat + 255) % 256 ∧
      t = { s with x := s.x.set 7 sp, mem := t.mem } ∧ Memory.read t.mem sp.toNat = v ∧
      ∀ addr, addr ≠ sp.toNat → Memory.read t.mem addr = Memory.read s.mem addr

/-- R131: the byte at SP is read, then SP is incremented by 1 modulo 256; the cell keeps its contents and the
read never faults. -/
def Obligations.PopStackReadsAtTheStackPointer : Prop :=
  ∀ s : State, ∃ sp : Byte, sp.toNat = (s.x[7].toNat + 1) % 256 ∧
    popStack s = .ok (Memory.read s.mem s.x[7].toNat, { s with x := s.x.set 7 sp })

/-- R132: PUSH of a valid register stores the value the register had BEFORE the decrement (PUSH R7 stores the
old SP: decision D11, log 7) at the new SP; it changes SP, that one byte and the pc, and nothing else. An
index in [8, 255] faults before SP or Memory change. -/
def Obligations.PushStoresTheRegisterAtTheNewStackPointer : Prop :=
  ∀ (s : State) (a b : Byte), Memory.wf s.mem = true →
    decode ⟨0b01000101, a, b⟩ = .ok (.push a) ∧
      (∀ h : a.toNat < 8, ∃ t : State,
        exec (.push a) s = .next t ∧ (pushAddr s).toNat = (s.x[7].toNat + 255) % 256 ∧
          t = { s with x := s.x.set 7 (pushAddr s), mem := t.mem, pc := s.pc + 2 } ∧
          Memory.read t.mem (pushAddr s).toNat = s.x[a.toNat] ∧
          ∀ addr, addr ≠ (pushAddr s).toNat → Memory.read t.mem addr = Memory.read s.mem addr) ∧
      (8 ≤ a.toNat →
        exec (.push a) s = .next { s with mode := .faulted, fault := some (.registerFault a) })

/-- R133: POP reads the byte at SP, increments SP and then writes the byte to the register, so POP R7 leaves the
popped byte in R7 (decision D11, log 7). An index in [8, 255] faults with SP unchanged (decision D9, log 6).
No byte of Memory changes. -/
def Obligations.PopLoadsTheByteAtTheStackPointer : Prop :=
  ∀ (s : State) (a b : Byte),
    decode ⟨0b01000110, a, b⟩ = .ok (.pop a) ∧
      (∀ h : a.toNat < 8, ∃ sp : Byte, sp.toNat = (s.x[7].toNat + 1) % 256 ∧
        exec (.pop a) s = .next { s with
          x := (s.x.set 7 sp).set a.toNat (Memory.read s.mem s.x[7].toNat), pc := s.pc + 2 }) ∧
      (8 ≤ a.toNat →
        exec (.pop a) s = .next { s with mode := .faulted, fault := some (.registerFault a) })

/-- R136, over the two steps and with both exceptions: PUSH r followed at once by POP r' leaves in r' the value
r had, and restores SP when r' is not 7, provided the push does not overwrite the POP's own two bytes. For r = 7
the value is the old SP and for r' = 7 the popped byte stays in R7: decision D11 (log 7). -/
def Obligations.PushThenPopRestoresTheStackPointer : Prop :=
  ∀ (s : State) (r r' : Byte) (hr : r.toNat < 8) (hr' : r'.toNat < 8),
    Memory.wf s.mem = true → s.mode = .running → s.pc.toNat ≤ 251 →
    Memory.read s.mem s.pc.toNat = 0x45 → Memory.read s.mem (s.pc.toNat + 1) = r →
    Memory.read s.mem (s.pc.toNat + 2) = 0x46 → Memory.read s.mem (s.pc.toNat + 3) = r' →
    (s.x[7].toNat + 255) % 256 ≠ s.pc.toNat + 2 → (s.x[7].toNat + 255) % 256 ≠ s.pc.toNat + 3 →
    ∃ t : State, Reaches 2 s t ∧ t.x[r'.toNat] = s.x[r.toNat] ∧ (r'.toNat ≠ 7 → t.x[7] = s.x[7]) ∧
      t.pc.toNat = s.pc.toNat + 4 ∧ t.mode = .running

/-- R53 (decision D20, log 17): a byte a PUSH stores where the next instruction starts is the opcode byte the next
fetch reads. PUSH stores the value the register had before the step (R132), so for r = 7 that opcode byte is the old
stack pointer: decision D11 (log 7). -/
def Obligations.PushIntoCodeIsFetchedByTheNextStep : Prop :=
  ∀ (s : State) (r : Byte) (h : r.toNat < 8),
    Memory.wf s.mem = true → s.mode = .running → s.pc.toNat ≤ 251 →
    Memory.read s.mem s.pc.toNat = 0x45 → Memory.read s.mem (s.pc.toNat + 1) = r →
    (s.x[7].toNat + 255) % 256 = s.pc.toNat + 2 →
    ∃ (t : State) (f : Fetched), step s = .next t ∧ t.mode = .running ∧ t.pc.toNat = s.pc.toNat + 2 ∧
      fetch t = .ok f ∧ f.opcode = s.x[r.toNat]

/-- R33 and R43, over every step: the one byte of Memory a step can change is the one PUSH stores to. That a fetch
succeeds only up to pc 253 is decision D4 (log 5). -/
def Obligations.OnlyPushWritesMemory : Prop :=
  ∀ (s t : State) (addr : Nat), step s = .next t → Memory.read t.mem addr ≠ Memory.read s.mem addr →
    s.pc.toNat ≤ 253 ∧ (∃ a, decode s.fetched = .ok (.push a)) ∧ addr = (s.x[7].toNat + 255) % 256

/-! ## Frames over all instructions -/

/-- The frame of every instruction (R24 Writes column, R29, R31, R32, R34, R43, R148, R149): a register outside `writtenRegs`, the
flags but for CMP, every byte of Memory but the one PUSH stores to, and the trace but for PRN are as before; the
fault record too, and the mode but for HLT, unless the instruction took a fault, which changes those two alone: decision D9 (log 6). -/
def Obligations.EveryInstructionKeepsItsFrame : Prop :=
  ∀ (i : Instr) (s t : State), exec i s = .next t →
    (∀ (k : Nat) (h : k < 8), k ∉ writtenRegs i → t.x[k] = s.x[k]) ∧
      ((∀ a b, i ≠ .cmp a b) → t.fl = s.fl) ∧
      (∀ addr, (∀ a, i = .push a → addr ≠ (pushAddr s).toNat) →
        Memory.read t.mem addr = Memory.read s.mem addr) ∧
      ((∀ a, i ≠ .prn a) → t.trace = s.trace) ∧
      ((t.fault = s.fault ∧ (i ≠ .hlt → t.mode = s.mode)) ∨
        ∃ f, t = { s with mode := .faulted, fault := some f })

/-- R29: FL is overwritten only by CMP, and no instruction reads it: a step from a state with another flags byte
gives the same state but for the flags byte, which is either carried along or, after a CMP, the same. That the
fetch of the CMP succeeds only up to pc 253 is decision D4 (log 5). -/
def Obligations.FlagsAreWrittenByCmpAndReadByNothing : Prop :=
  (∀ s t : State, step s = .next t → t.fl ≠ s.fl →
      s.pc.toNat ≤ 253 ∧ ∃ a b, decode s.fetched = .ok (.cmp a b)) ∧
    (∀ (s t : State) (v : Byte), step s = .next t → ∃ u : State,
      step { s with fl := v } = .next u ∧ u = { t with fl := u.fl } ∧
        ((u.fl = v ∧ t.fl = s.fl) ∨ u.fl = t.fl))

/-- R34 (the event list is decision D14, log 9): a step appends at most one event and never reads the trace:
from any other trace it appends the same. -/
def Obligations.TraceIsAppendOnlyAndNeverRead : Prop :=
  ∀ s t : State, step s = .next t → ∃ new : List Event, new.length ≤ 1 ∧ t.trace = s.trace ++ new ∧
    ∀ p : List Event, step { s with trace := p } = .next { t with trace := p ++ new }

/-! ## Faults -/

/-- R143: DivisionByZero is raised by DIV with both indices valid and a zero divisor register, by no other
instruction, and writes no value. -/
def Obligations.DivisionByZeroIsRaisedByDivAlone : Prop :=
  ∀ (i : Instr) (s t : State), exec i s = .next t → s.fault ≠ some .divisionByZero →
    (t.fault = some .divisionByZero ↔
      ∃ (a b : Byte) (_ : a.toNat < 8) (hb : b.toNat < 8), i = .div a b ∧ s.x[b.toNat] = 0) ∧
    (t.fault = some .divisionByZero → t.x = s.x)

/-- The taxonomy of R140 over every step (AddressingFault exactly above pc 253 is decision D4, log 5; the priority
is D10, log 6; CMP's exemption is D3, log 4):
each fault is recorded exactly when its cause is there and no earlier one is. -/
def Obligations.EachFaultHasExactlyItsCause : Prop :=
  ∀ s t : State, s.fault = none → step s = .next t →
    ((∃ addr, t.fault = some (.addressingFault addr)) ↔ 253 < s.pc.toNat) ∧
    ((∃ k, t.fault = some (.registerFault k)) ↔
      s.pc.toNat ≤ 253 ∧ ∃ i, decode s.fetched = .ok i ∧ i.wellFormed = false) ∧
    (t.fault = some .divisionByZero ↔
      s.pc.toNat ≤ 253 ∧ ∃ (a b : Byte) (_ : a.toNat < 8) (hb : b.toNat < 8),
        decode s.fetched = .ok (.div a b) ∧ s.x[b.toNat] = 0)

/-- R148 and R149 (decisions D9, D13; log 6): a step that ends in Faulted changed `mode` and `fault` and nothing
else, and a step that does not leaves the record as it was. -/
def Obligations.FaultsArePrecise : Prop :=
  ∀ s t : State, step s = .next t →
    (t.mode = .faulted → ∃ f, t = { s with mode := .faulted, fault := some f }) ∧
      (t.mode ≠ .faulted → t.fault = s.fault)

/-! ## The run -/

/-- R91: every run ends. From any Running state, at most 254 completed steps reach an HLT, or at most 254
completed steps and one faulting step reach Faulted; from the ended state there is no further step (R150, D16,
log 10). That a run past pc 253 ends Faulted is decision D4 (log 5). -/
def Obligations.EveryRunEndsWithin255Steps : Prop :=
  ∀ s : State, s.mode = .running → ∃ (k : Nat) (t : State), 1 ≤ k ∧ Reaches k s t ∧
    ((t.mode = .halted ∧ k ≤ 254) ∨ (t.mode = .faulted ∧ k ≤ 255)) ∧ ¬ ∃ u, step t = .next u

/-- R176 (derived by the spec from R55, R81, R86): a run that meets zeros up to the top of Memory reports one
Unknown(0x00, address) per cell up to 253 and then faults with AddressingFault(256) at pc 254. The fault is
decision D4 (log 5), the Unknown events are D14 (log 9). -/
def Obligations.FallingOffTheEndReportsEveryZeroByte : Prop :=
  ∀ s : State, s.mode = .running → s.pc.toNat ≤ 253 →
    (∀ addr, s.pc.toNat ≤ addr → addr ≤ 255 → Memory.read s.mem addr = 0) →
    Reaches (255 - s.pc.toNat) s { s with
      pc := 254
      mode := .faulted
      fault := some (.addressingFault 256)
      trace := s.trace ++
        (List.range (254 - s.pc.toNat)).map fun k => .unknown 0 (BitVec.ofNat 9 (s.pc.toNat + k)) }

/-! ## The host's side -/

/-- R171 and R55 (D8, log 3; D24): booting an image of at most 256 literals gives the Running machine at its
reset values with the literals mod 256 (log 16) at consecutive addresses from 0 and zeros after them; a longer image
is a load failure at address 256 and no run begins. -/
def Obligations.BootLoadsTheImageAndLaunches : Prop :=
  ∀ (gpr : Vector Byte 7) (image : List Nat),
    (image.length ≤ 256 → ∃ s : State, boot gpr image = .next s ∧
      s = { State.resetWith gpr with mem := s.mem, mode := .running } ∧ Memory.wf s.mem = true ∧
      ∀ addr, Memory.read s.mem addr = BitVec.ofNat 8 (image[addr]?.getD 0)) ∧
    (256 < image.length → boot gpr image = .fault (.loadFailure 256))

/-- R172 and R56 (D16, D21; log 10): outside Ready the host neither writes Memory nor launches; in Ready a
launch changes the mode alone. -/
def Obligations.HostActsOnlyInReady : Prop :=
  ∀ (s : State) (addr v : Nat),
    (s.mode ≠ .ready → s.hostLoad addr v = .refused (.hostActOutsideReady s.mode) ∧
      s.launch = .refused (.hostActOutsideReady s.mode)) ∧
    (s.mode = .ready → s.launch = .next { s with mode := .running })

/-- The instruction withFetchWord places is the one the next step runs (log 11). -/
def Obligations.PlacedWordIsRunByTheNextStep : Prop :=
  ∀ (s : State) (nbits w : Nat) (i : Instr), Memory.wf s.mem = true → s.pc.toNat ≤ 253 →
    decodeTableWord nbits w = some i →
    step (s.withFetchWord nbits w) = exec i (s.withFetchWord nbits w)

/-- R156 (D21; log 12): the debug view shows the pc, the bytes at the pc that exist, and the registers, and does
not depend on FL, the mode, the fault record or the trace. -/
def Obligations.DebugViewShowsPcBytesAndRegisters : Prop :=
  ∀ s : State, s.debugView.pc = s.pc ∧ s.debugView.x = s.x ∧ s.debugView.bytes.length = 3 ∧
    ∀ k, k < 3 → s.debugView.bytes[k]? =
      some (if s.pc.toNat + k ≤ 255 then some (Memory.read s.mem (s.pc.toNat + k)) else none)
end

