-- ==== Sys2Proof/Laws/Decode.lean ====
section
/-! SUPPORT. The decoder, one lemma for each answer it gives. -/

namespace Sys2Proof

/-- The length rule on the operand-count bits, as numbers. -/
theorem instrLength_le (op : Byte) : 1 ≤ instrLength op ∧ instrLength op ≤ 4 := by
  simp only [instrLength, BitVec.toNat_ushiftRight, Nat.shiftRight_eq_div_pow]
  omega

/-! The length of each defined opcode byte (R65's Length column). -/

@[simp] theorem instrLength_ldi : instrLength Opcode.ldi = 3 := by decide
@[simp] theorem instrLength_prn : instrLength Opcode.prn = 2 := by decide
@[simp] theorem instrLength_hlt : instrLength Opcode.hlt = 1 := by decide
@[simp] theorem instrLength_add : instrLength Opcode.add = 3 := by decide
@[simp] theorem instrLength_sub : instrLength Opcode.sub = 3 := by decide
@[simp] theorem instrLength_mul : instrLength Opcode.mul = 3 := by decide
@[simp] theorem instrLength_div : instrLength Opcode.div = 3 := by decide
@[simp] theorem instrLength_cmp : instrLength Opcode.cmp = 3 := by decide
@[simp] theorem instrLength_push : instrLength Opcode.push = 2 := by decide
@[simp] theorem instrLength_pop : instrLength Opcode.pop = 2 := by decide

/-- An accepted word's instruction has that word's opcode byte. -/
theorem decode_opcode {f : Fetched} {i : Instr} (h : decode f = .ok i) : i.opcode = f.opcode := by
  unfold decode at h
  repeat' split at h
  all_goals first
    | (injection h with h; subst h; simp_all [Instr.opcode])
    | simp at h

/-- A rejected word's opcode byte is the one rejected, and it is none of the ten. -/
theorem decode_reject {f : Fetched} {op : Byte} (h : decode f = .error (.unknownOpcode op)) :
    op = f.opcode ∧ op ∉ definedOpcodes := by
  unfold decode at h
  repeat' split at h
  all_goals first
    | (simp at h; done)
    | (injection h with h; injection h with h; subst h; simp_all [definedOpcodes])

end Sys2Proof
end

