-- ==== Sys2Proof/Laws/Memory.lean ====
section
/-! SUPPORT. Memory: a read after a write, and the canonical form kept by every operation that changes
Memory. -/

namespace Sys2Proof.Machine

theorem Memory.wf_cons {c : Host.Cell} {r : Memory} :
    Memory.wf (c :: r) = true ↔
      c.1 < 256 ∧ c.2 ≠ Config.unlistedByte ∧ (∀ d ∈ r, c.1 < d.1) ∧ Memory.wf r = true := by
  simp only [Memory.wf, Bool.and_eq_true, decide_eq_true_eq, bne_iff_ne, List.all_eq_true, and_assoc]
  exact Iff.rfl

/-- An address below every listed one reads as an unwritten cell. -/
theorem Memory.read_of_lt {m : Memory} {a : Nat} (h : ∀ d ∈ m, a < d.1) :
    Memory.read m a = Config.unlistedByte := by
  induction m with
  | nil => rfl
  | cons c r ih =>
    have hc : ¬ c.1 = a := by have := h c (by simp); omega
    simp only [Memory.read, hc, if_false]
    exact ih fun d hd => h d (by simp [hd])

theorem Memory.read_insert (m : Memory) (a b : Nat) (v : Byte) :
    Memory.read (Memory.insert m a v) b = if a = b then v else Memory.read m b := by
  induction m with
  | nil => simp [Memory.insert, Memory.read]
  | cons c r ih =>
    simp only [Memory.insert]
    split
    · simp [Memory.read]
    · split
      · rename_i _ h; simp only [Memory.read, h]; split <;> simp_all
      · rename_i _ h
        simp only [Memory.read, ih]
        by_cases hb : c.1 = b
        · have : ¬ a = b := fun e => h (hb.trans e.symm)
          simp [hb, this]
        · simp [hb]

theorem Memory.read_erase_other (m : Memory) {a b : Nat} (h : a ≠ b) :
    Memory.read (Memory.erase m a) b = Memory.read m b := by
  induction m with
  | nil => rfl
  | cons c r ih =>
    simp only [Memory.erase]
    split
    · rename_i hc
      have : ¬ c.1 = b := by omega
      simp [Memory.read, this]
    · simp only [Memory.read, ih]

theorem Memory.read_erase_same {m : Memory} (hm : Memory.wf m = true) (a : Nat) :
    Memory.read (Memory.erase m a) a = Config.unlistedByte := by
  induction m with
  | nil => rfl
  | cons c r ih =>
    obtain ⟨-, -, hlt, hr⟩ := Memory.wf_cons.mp hm
    simp only [Memory.erase]
    split
    · rename_i hc; exact Memory.read_of_lt fun d hd => hc ▸ hlt d hd
    · rename_i hc; simp only [Memory.read, hc, if_false]; exact ih hr

/-- A read of the address just written gives the byte written. -/
theorem Memory.read_write_same {m : Memory} (hm : Memory.wf m = true) (a : Nat) (v : Byte) :
    Memory.read (Memory.write m a v) a = v := by
  unfold Memory.write
  split
  · rename_i h; rw [Memory.read_erase_same hm, h]
  · simp [Memory.read_insert]

/-- A write leaves every other address as it was. -/
theorem Memory.read_write_other (m : Memory) {a b : Nat} (v : Byte) (h : a ≠ b) :
    Memory.read (Memory.write m a v) b = Memory.read m b := by
  unfold Memory.write
  split
  · exact Memory.read_erase_other m h
  · simp [Memory.read_insert, h]

theorem Memory.mem_erase {m : Memory} {a : Nat} {d : Host.Cell} (h : d ∈ Memory.erase m a) : d ∈ m := by
  induction m with
  | nil => exact h
  | cons c r ih =>
    simp only [Memory.erase] at h
    split at h
    · exact List.mem_cons_of_mem _ h
    · rcases List.mem_cons.mp h with rfl | h
      · simp
      · exact List.mem_cons_of_mem _ (ih h)

theorem Memory.mem_insert {m : Memory} {a : Nat} {v : Byte} {d : Host.Cell}
    (h : d ∈ Memory.insert m a v) : d = (a, v) ∨ d ∈ m := by
  induction m with
  | nil => simpa [Memory.insert] using h
  | cons c r ih =>
    simp only [Memory.insert] at h
    split at h
    · simpa using h
    · split at h
      · rcases List.mem_cons.mp h with rfl | h <;> simp_all
      · rcases List.mem_cons.mp h with rfl | h
        · simp
        · rcases ih h with rfl | h <;> simp_all

theorem Memory.wf_erase {m : Memory} (hm : Memory.wf m = true) (a : Nat) :
    Memory.wf (Memory.erase m a) = true := by
  induction m with
  | nil => rfl
  | cons c r ih =>
    obtain ⟨h1, h2, h3, hr⟩ := Memory.wf_cons.mp hm
    simp only [Memory.erase]
    split
    · exact hr
    · exact Memory.wf_cons.mpr ⟨h1, h2, fun d hd => h3 d (Memory.mem_erase hd), ih hr⟩

theorem Memory.wf_insert {m : Memory} (hm : Memory.wf m = true) {a : Nat} {v : Byte} (ha : a < 256)
    (hv : v ≠ Config.unlistedByte) : Memory.wf (Memory.insert m a v) = true := by
  induction m with
  | nil => exact Memory.wf_cons.mpr ⟨ha, hv, by simp, rfl⟩
  | cons c r ih =>
    obtain ⟨h1, h2, h3, hr⟩ := Memory.wf_cons.mp hm
    simp only [Memory.insert]
    split
    · rename_i hlt
      refine Memory.wf_cons.mpr ⟨ha, hv, fun d hd => ?_, hm⟩
      rcases List.mem_cons.mp hd with rfl | hd
      · exact hlt
      · exact Nat.lt_trans hlt (h3 d hd)
    · split
      · rename_i hEq; exact Memory.wf_cons.mpr ⟨ha, hv, fun d hd => hEq ▸ h3 d hd, hr⟩
      · refine Memory.wf_cons.mpr ⟨h1, h2, fun d hd => ?_, ih hr⟩
        rcases Memory.mem_insert hd with rfl | hd
        · show c.1 < a
          omega
        · exact h3 d hd

/-- Storing a byte at an address of Memory keeps the canonical form. -/
theorem Memory.wf_write {m : Memory} (hm : Memory.wf m = true) {a : Nat} (ha : a < 256) (v : Byte) :
    Memory.wf (Memory.write m a v) = true := by
  unfold Memory.write
  split
  · exact Memory.wf_erase hm a
  · rename_i hv; exact Memory.wf_insert hm ha hv

/-- Placing a byte for the next fetch keeps the canonical form, at any address. -/
theorem Memory.wf_placeByte {m : Memory} (hm : Memory.wf m = true) (a : Nat) (v : Byte) :
    Memory.wf (placeByte m a v) = true := by
  unfold placeByte
  split
  · exact Memory.wf_write hm (by assumption) v
  · exact hm

/-- So does placing a whole instruction. -/
theorem placeFetched_wf {s : State} (hm : Memory.wf s.mem = true) (f : Fetched) :
    Memory.wf (placeFetched s f).mem = true :=
  Memory.wf_placeByte (Memory.wf_placeByte (Memory.wf_placeByte hm _ _) _ _) _ _

/-- Memory at reset is canonical, whatever the reset registers are. -/
theorem resetWith_mem_wf (gpr : Vector Byte 7) : Memory.wf (State.resetWith gpr).mem = true := rfl

theorem reset_mem_wf : Memory.wf State.reset.mem = true := rfl

/-- Two canonical memories that read alike everywhere are the same list. -/
theorem Memory.ext_of_read {m n : Memory} (hm : Memory.wf m = true) (hn : Memory.wf n = true)
    (h : ∀ a, Memory.read m a = Memory.read n a) : m = n := by
  induction m generalizing n with
  | nil =>
    cases n with
    | nil => rfl
    | cons d q =>
      obtain ⟨-, hv, -, -⟩ := Memory.wf_cons.mp hn
      exact absurd (by simpa [Memory.read] using (h d.1).symm) hv
  | cons c r ih =>
    obtain ⟨-, hcv, hclt, hr⟩ := Memory.wf_cons.mp hm
    cases n with
    | nil => exact absurd (by simpa [Memory.read] using h c.1) hcv
    | cons d q =>
      obtain ⟨-, hdv, hdlt, hq⟩ := Memory.wf_cons.mp hn
      have key : c.1 = d.1 := by
        rcases Nat.lt_trichotomy c.1 d.1 with hlt | heq | hgt
        · have h1 := h c.1
          rw [Memory.read_of_lt (m := d :: q) (a := c.1)] at h1
          · exact absurd (by simpa [Memory.read] using h1) hcv
          · intro e he
            rcases List.mem_cons.mp he with rfl | he
            · exact hlt
            · exact Nat.lt_trans hlt (hdlt e he)
        · exact heq
        · have h1 := (h d.1).symm
          rw [Memory.read_of_lt (m := c :: r) (a := d.1)] at h1
          · exact absurd (by simpa [Memory.read] using h1) hdv
          · intro e he
            rcases List.mem_cons.mp he with rfl | he
            · exact hgt
            · exact Nat.lt_trans hgt (hclt e he)
      have hv : c.2 = d.2 := by simpa [Memory.read, key] using h c.1
      have hcd : c = d := Prod.ext key hv
      subst hcd
      congr 1
      refine ih hr hq fun a => ?_
      by_cases ha : c.1 = a
      · subst ha; rw [Memory.read_of_lt hclt, Memory.read_of_lt hdlt]
      · simpa [Memory.read, ha] using h a

end Sys2Proof.Machine
end

