-- ==== Sys2Proof/Laws/State.lean ====
section
/-! SUPPORT. One lemma per field per update of the state, so that no proof unfolds a record update. -/

namespace Sys2Proof.Machine

@[simp] theorem State.setX_x (s : State) (i : Fin 8) (v : Byte) : (s.setX i v).x = s.x.set i v := rfl
@[simp] theorem State.setX_pc (s : State) (i : Fin 8) (v : Byte) : (s.setX i v).pc = s.pc := rfl
@[simp] theorem State.setX_fl (s : State) (i : Fin 8) (v : Byte) : (s.setX i v).fl = s.fl := rfl
@[simp] theorem State.setX_mem (s : State) (i : Fin 8) (v : Byte) : (s.setX i v).mem = s.mem := rfl
@[simp] theorem State.setX_mode (s : State) (i : Fin 8) (v : Byte) : (s.setX i v).mode = s.mode := rfl
@[simp] theorem State.setX_fault (s : State) (i : Fin 8) (v : Byte) : (s.setX i v).fault = s.fault := rfl
@[simp] theorem State.setX_trace (s : State) (i : Fin 8) (v : Byte) : (s.setX i v).trace = s.trace := rfl

@[simp] theorem State.setSp_x (s : State) (v : Byte) : (s.setSp v).x = s.x.set 7 v := rfl
@[simp] theorem State.setSp_pc (s : State) (v : Byte) : (s.setSp v).pc = s.pc := rfl
@[simp] theorem State.setSp_fl (s : State) (v : Byte) : (s.setSp v).fl = s.fl := rfl
@[simp] theorem State.setSp_mem (s : State) (v : Byte) : (s.setSp v).mem = s.mem := rfl
@[simp] theorem State.setSp_mode (s : State) (v : Byte) : (s.setSp v).mode = s.mode := rfl
@[simp] theorem State.setSp_fault (s : State) (v : Byte) : (s.setSp v).fault = s.fault := rfl
@[simp] theorem State.setSp_trace (s : State) (v : Byte) : (s.setSp v).trace = s.trace := rfl

@[simp] theorem State.setFl_x (s : State) (v : Byte) : (s.setFl v).x = s.x := rfl
@[simp] theorem State.setFl_pc (s : State) (v : Byte) : (s.setFl v).pc = s.pc := rfl
@[simp] theorem State.setFl_fl (s : State) (v : Byte) : (s.setFl v).fl = v := rfl
@[simp] theorem State.setFl_mem (s : State) (v : Byte) : (s.setFl v).mem = s.mem := rfl
@[simp] theorem State.setFl_mode (s : State) (v : Byte) : (s.setFl v).mode = s.mode := rfl
@[simp] theorem State.setFl_fault (s : State) (v : Byte) : (s.setFl v).fault = s.fault := rfl
@[simp] theorem State.setFl_trace (s : State) (v : Byte) : (s.setFl v).trace = s.trace := rfl

@[simp] theorem State.setMem_x (s : State) (m : Memory) : (s.setMem m).x = s.x := rfl
@[simp] theorem State.setMem_pc (s : State) (m : Memory) : (s.setMem m).pc = s.pc := rfl
@[simp] theorem State.setMem_fl (s : State) (m : Memory) : (s.setMem m).fl = s.fl := rfl
@[simp] theorem State.setMem_mem (s : State) (m : Memory) : (s.setMem m).mem = m := rfl
@[simp] theorem State.setMem_mode (s : State) (m : Memory) : (s.setMem m).mode = s.mode := rfl
@[simp] theorem State.setMem_fault (s : State) (m : Memory) : (s.setMem m).fault = s.fault := rfl
@[simp] theorem State.setMem_trace (s : State) (m : Memory) : (s.setMem m).trace = s.trace := rfl

@[simp] theorem State.emit_x (s : State) (e : Event) : (s.emit e).x = s.x := rfl
@[simp] theorem State.emit_pc (s : State) (e : Event) : (s.emit e).pc = s.pc := rfl
@[simp] theorem State.emit_fl (s : State) (e : Event) : (s.emit e).fl = s.fl := rfl
@[simp] theorem State.emit_mem (s : State) (e : Event) : (s.emit e).mem = s.mem := rfl
@[simp] theorem State.emit_mode (s : State) (e : Event) : (s.emit e).mode = s.mode := rfl
@[simp] theorem State.emit_fault (s : State) (e : Event) : (s.emit e).fault = s.fault := rfl
@[simp] theorem State.emit_trace (s : State) (e : Event) : (s.emit e).trace = s.trace ++ [e] := rfl

@[simp] theorem State.advance_x (s : State) (n : Nat) : (s.advance n).x = s.x := rfl
@[simp] theorem State.advance_pc (s : State) (n : Nat) : (s.advance n).pc = s.pc + BitVec.ofNat 9 n := rfl
@[simp] theorem State.advance_fl (s : State) (n : Nat) : (s.advance n).fl = s.fl := rfl
@[simp] theorem State.advance_mem (s : State) (n : Nat) : (s.advance n).mem = s.mem := rfl
@[simp] theorem State.advance_mode (s : State) (n : Nat) : (s.advance n).mode = s.mode := rfl
@[simp] theorem State.advance_fault (s : State) (n : Nat) : (s.advance n).fault = s.fault := rfl
@[simp] theorem State.advance_trace (s : State) (n : Nat) : (s.advance n).trace = s.trace := rfl

@[simp] theorem State.halt_x (s : State) : s.halt.x = s.x := rfl
@[simp] theorem State.halt_pc (s : State) : s.halt.pc = s.pc := rfl
@[simp] theorem State.halt_fl (s : State) : s.halt.fl = s.fl := rfl
@[simp] theorem State.halt_mem (s : State) : s.halt.mem = s.mem := rfl
@[simp] theorem State.halt_mode (s : State) : s.halt.mode = Mode.halted := rfl
@[simp] theorem State.halt_fault (s : State) : s.halt.fault = s.fault := rfl
@[simp] theorem State.halt_trace (s : State) : s.halt.trace = s.trace := rfl

@[simp] theorem State.takeFault_x (s : State) (f : FaultRecord) : (s.takeFault f).x = s.x := rfl
@[simp] theorem State.takeFault_pc (s : State) (f : FaultRecord) : (s.takeFault f).pc = s.pc := rfl
@[simp] theorem State.takeFault_fl (s : State) (f : FaultRecord) : (s.takeFault f).fl = s.fl := rfl
@[simp] theorem State.takeFault_mem (s : State) (f : FaultRecord) : (s.takeFault f).mem = s.mem := rfl
@[simp] theorem State.takeFault_mode (s : State) (f : FaultRecord) : (s.takeFault f).mode = Mode.faulted := rfl
@[simp] theorem State.takeFault_fault (s : State) (f : FaultRecord) : (s.takeFault f).fault = some f := rfl
@[simp] theorem State.takeFault_trace (s : State) (f : FaultRecord) : (s.takeFault f).trace = s.trace := rfl

@[simp] theorem State.reportUnknown_x (s : State) (op : Byte) : (s.reportUnknown op).x = s.x := rfl
@[simp] theorem State.reportUnknown_pc (s : State) (op : Byte) : (s.reportUnknown op).pc = s.pc + BitVec.ofNat 9 (instrLength op) := rfl
@[simp] theorem State.reportUnknown_fl (s : State) (op : Byte) : (s.reportUnknown op).fl = s.fl := rfl
@[simp] theorem State.reportUnknown_mem (s : State) (op : Byte) : (s.reportUnknown op).mem = s.mem := rfl
@[simp] theorem State.reportUnknown_mode (s : State) (op : Byte) : (s.reportUnknown op).mode = s.mode := rfl
@[simp] theorem State.reportUnknown_fault (s : State) (op : Byte) : (s.reportUnknown op).fault = s.fault := rfl
@[simp] theorem State.reportUnknown_trace (s : State) (op : Byte) : (s.reportUnknown op).trace = s.trace ++ [Event.unknown op s.pc] := rfl

end Sys2Proof.Machine
end

