-- ==== Sys2Proof/Laws/Ops.lean ====
section
/-! SUPPORT. One lemma for each shared operation: all it can do, once. -/

namespace Sys2Proof.Machine

/-! ## narrow -/

@[simp] theorem narrow_toNat (b : Byte) : narrow (b.toNat : Int) = b := by
  simp [narrow]

/-- A narrowed number is its remainder modulo 256 (R8). -/
theorem toNat_narrow (v : Int) : ((narrow v).toNat : Int) = v % 256 := by
  simp only [narrow, BitVec.toNat_ofInt]
  omega

/-! ## Registers -/

theorem getReg_ok {i : Byte} (h : i.toNat < 8) (s : State) : getReg s i = .ok s.x[i.toNat] := by
  simp [getReg, h]

theorem getReg_fault {i : Byte} (h : ¬ i.toNat < 8) (s : State) : getReg s i = .error (.registerFault i) := by
  simp [getReg, h]

theorem setReg_ok {i : Byte} (h : i.toNat < 8) (s : State) (v : Int) :
    setReg s i v = .ok (s.setX ⟨i.toNat, h⟩ (narrow v)) := by
  simp [setReg, h]

theorem setReg_fault {i : Byte} (h : ¬ i.toNat < 8) (s : State) (v : Int) :
    setReg s i v = .error (.registerFault i) := by
  simp [setReg, h]

@[simp] theorem State.setX_sp (s : State) (i : Fin 8) (v : Byte) :
    (s.setX i v).sp = if i = 7 then v else s.sp := by
  by_cases h : i = 7
  · subst h; simp [State.sp]
  · have : (i : Nat) ≠ 7 := fun e => h (Fin.ext e)
    simp [State.sp, h, this]

@[simp] theorem State.setSp_sp (s : State) (v : Byte) : (s.setSp v).sp = v := by
  simp [State.setSp]

/-! ## Memory -/

theorem memRead_ok {addr : Nat} (h : addr < 256) (s : State) : memRead s addr = .ok (Memory.read s.mem addr) := by
  simp [memRead, Config.memSize, h]

theorem memRead_fault {addr : Nat} (h : ¬ addr < 256) (s : State) :
    memRead s addr = .error (.addressingFault addr) := by
  simp [memRead, Config.memSize, h]

theorem memWrite_ok {addr : Nat} (h : addr < 256) (s : State) (v : Int) :
    memWrite s addr v = .ok (s.setMem (Memory.write s.mem addr (narrow v))) := by
  simp [memWrite, Config.memSize, h]

theorem memWrite_fault {addr : Nat} (h : ¬ addr < 256) (s : State) (v : Int) :
    memWrite s addr v = .error (.addressingFault addr) := by
  simp [memWrite, Config.memSize, h]

/-! ## The stack: neither primitive can fault -/

/-- The store address of a push, as a number. -/
theorem pushAddr_toNat (s : State) : (pushAddr s).toNat = (s.sp.toNat + 255) % 256 := by
  have h := toNat_narrow ((s.sp.toNat : Int) - 1)
  simp only [pushAddr]
  omega

theorem pushStack_eq (s : State) (v : Byte) :
    pushStack s v =
      .ok ((s.setSp (pushAddr s)).setMem (Memory.write s.mem (pushAddr s).toNat v)) := by
  simp [pushStack, memWrite_ok (pushAddr s).isLt]

theorem popStack_eq (s : State) :
    popStack s =
      .ok (Memory.read s.mem (popAddr s).toNat, s.setSp (narrow ((s.sp.toNat : Int) + 1))) := by
  simp [popStack, memRead_ok (popAddr s).isLt, bind, Except.bind, pure, Except.pure]

/-! ## Operands -/

theorem regPair_ok {a b : Byte} (ha : a.toNat < 8) (hb : b.toNat < 8) (s : State) :
    regPair s a b = .ok (s.x[a.toNat], s.x[b.toNat]) := by
  simp [regPair, getReg_ok ha, getReg_ok hb, bind, Except.bind, pure, Except.pure]

theorem regPair_fault_first {a : Byte} (ha : ¬ a.toNat < 8) (b : Byte) (s : State) :
    regPair s a b = .error (.registerFault a) := by
  simp [regPair, getReg_fault ha, bind, Except.bind]

theorem regPair_fault_second {a b : Byte} (ha : a.toNat < 8) (hb : ¬ b.toNat < 8) (s : State) :
    regPair s a b = .error (.registerFault b) := by
  simp [regPair, getReg_ok ha, getReg_fault hb, bind, Except.bind]

/-! ## CMP's flags: exactly one bit -/

theorem cmpFlags_of_eq {a b : Nat} (h : a = b) : cmpFlags a b = flagE := by
  simp [cmpFlags, h]

theorem cmpFlags_of_gt {a b : Nat} (h : b < a) : cmpFlags a b = flagG := by
  have : a ≠ b := by omega
  simp [cmpFlags, this, h]

theorem cmpFlags_of_lt {a b : Nat} (h : a < b) : cmpFlags a b = flagL := by
  have h1 : a ≠ b := by omega
  have h2 : ¬ b < a := by omega
  simp [cmpFlags, h1, h2]

/-! ## The end of an instruction -/

@[simp] theorem complete_ok (op : Byte) (s t : State) :
    complete op s (.ok t) = .next (t.advance (instrLength op)) := rfl

@[simp] theorem complete_error (op : Byte) (s : State) (f : FaultRecord) :
    complete op s (.error f) = .next (s.takeFault f) := rfl

/-- An instruction that ends in `complete` answers a next state: its effect's state advanced, or the fault
taken from the state before it. -/
theorem complete_cases {op : Byte} {s t : State} {e : Except FaultRecord State} (h : complete op s e = .next t) :
    (∃ u, e = .ok u ∧ t = u.advance (instrLength op)) ∨ (∃ f, e = .error f ∧ t = s.takeFault f) := by
  cases e with
  | ok u => exact .inl ⟨u, rfl, by simpa using h.symm⟩
  | error f => exact .inr ⟨f, rfl, by simpa using h.symm⟩

/-! ## The host's acts -/

/-- A load act that answers a next state wrote one byte of Memory in Ready. -/
theorem hostLoad_cases {s t : State} {addr v : Nat} (h : s.hostLoad addr v = .next t) :
    s.mode = .ready ∧ addr < 256 ∧ t = s.setMem (Memory.write s.mem addr (narrow v)) := by
  unfold State.hostLoad at h
  cases hm : s.mode <;> simp only [hm] at h
  · by_cases ha : addr < 256
    · simp only [memWrite_ok ha] at h
      exact ⟨rfl, ha, by simpa using h.symm⟩
    · simp [memWrite_fault ha] at h
  all_goals exact absurd h (by simp)

/-- A load act keeps the canonical form. -/
theorem hostLoad_wf {s t : State} {addr v : Nat} (h : s.hostLoad addr v = .next t)
    (hm : Memory.wf s.mem = true) : Memory.wf t.mem = true := by
  obtain ⟨-, ha, rfl⟩ := hostLoad_cases h
  exact Memory.wf_write hm ha _

end Sys2Proof.Machine
end

