-- ==== Sys2Proof/Laws/Exec.lean ====
section
/-! SUPPORT. What each meaning's effect can be (one inversion lemma per instruction), and what a step can do. -/

namespace Sys2Proof.Machine

theorem execLdi_eq (a imm : Byte) (s : State) :
    execLdi a imm s =
      if h : a.toNat < 8 then .next ((s.setX ⟨a.toNat, h⟩ imm).advance 3)
      else .next (s.takeFault (.registerFault a)) := by
  by_cases h : a.toNat < 8
  · simp only [execLdi, setReg_ok h, complete_ok, immediate, narrow_toNat, h, dif_pos]; rfl
  · simp [execLdi, setReg_fault h, h]

theorem execPrn_eq (a : Byte) (s : State) :
    execPrn a s =
      if h : a.toNat < 8 then .next ((s.emit (.out s.x[a.toNat])).advance 2)
      else .next (s.takeFault (.registerFault a)) := by
  by_cases h : a.toNat < 8
  · simp only [execPrn, regOperand, getReg_ok h, bind, Except.bind, pure, Except.pure, complete_ok, h, dif_pos]
    rfl
  · simp [execPrn, regOperand, getReg_fault h, bind, Except.bind, h]

theorem execHlt_eq (s : State) : execHlt s = .next (s.advance 1).halt := rfl

/-- The four register results of the ALU at once: what `f` answers on the two register values. -/
theorem aluRegister_eq (f : Byte → Byte → Except FaultRecord Int) (a b : Byte) (s : State) :
    aluRegister f a b s =
      if ha : a.toNat < 8 then
        if hb : b.toNat < 8 then
          (f s.x[a.toNat] s.x[b.toNat]).map fun r => s.setX ⟨a.toNat, ha⟩ (narrow r)
        else .error (.registerFault b)
      else .error (.registerFault a) := by
  by_cases ha : a.toNat < 8
  · by_cases hb : b.toNat < 8
    · simp only [aluRegister, regPair_ok ha hb, bind, Except.bind, ha, hb, dif_pos, setReg_ok ha]
      cases f s.x[a.toNat] s.x[b.toNat] <;> rfl
    · simp [aluRegister, regPair_fault_second ha hb, bind, Except.bind, ha, hb]
  · simp [aluRegister, regPair_fault_first ha, bind, Except.bind, ha]

theorem execCmp_eq (a b : Byte) (s : State) :
    execCmp a b s = .next ((s.setFl (cmpFlags a.toNat b.toNat)).advance 3) := rfl

theorem execPush_eq (a : Byte) (s : State) :
    execPush a s =
      if h : a.toNat < 8 then
        .next (((s.setSp (pushAddr s)).setMem
          (Memory.write s.mem (pushAddr s).toNat s.x[a.toNat])).advance 2)
      else .next (s.takeFault (.registerFault a)) := by
  by_cases h : a.toNat < 8
  · simp only [execPush, regOperand, getReg_ok h, bind, Except.bind, pushStack_eq, complete_ok, h, dif_pos]
    rfl
  · simp [execPush, regOperand, getReg_fault h, bind, Except.bind, h]

theorem execPop_eq (a : Byte) (s : State) :
    execPop a s =
      if h : a.toNat < 8 then
        .next (((s.setSp (narrow ((s.sp.toNat : Int) + 1))).setX ⟨a.toNat, h⟩
          (Memory.read s.mem (popAddr s).toNat)).advance 2)
      else .next (s.takeFault (.registerFault a)) := by
  by_cases h : a.toNat < 8
  · simp only [execPop, checkReg, h, if_true, bind, Except.bind, popStack_eq, setReg_ok h, complete_ok,
      narrow_toNat, dif_pos]
    rfl
  · simp [execPop, checkReg, h, bind, Except.bind]

/-! ## The step -/

/-- The fetch either reads three bytes of Memory or faults on the first address above 255. -/
theorem fetch_eq (s : State) :
    fetch s =
      if s.pc.toNat ≤ 253 then
        .ok ⟨Memory.read s.mem s.pc.toNat, Memory.read s.mem (s.pc.toNat + 1), Memory.read s.mem (s.pc.toNat + 2)⟩
      else .error (.addressingFault (max 256 s.pc.toNat)) := by
  by_cases h0 : s.pc.toNat < 256
  · by_cases h1 : s.pc.toNat + 1 < 256
    · by_cases h2 : s.pc.toNat + 2 < 256
      · simp only [fetch, memRead_ok h0, memRead_ok h1, memRead_ok h2, bind, Except.bind, pure, Except.pure]
        rw [if_pos (by omega)]
      · simp only [fetch, memRead_ok h0, memRead_ok h1, memRead_fault h2, bind, Except.bind]
        rw [if_neg (by omega), show max 256 s.pc.toNat = s.pc.toNat + 2 by omega]
    · simp only [fetch, memRead_ok h0, memRead_fault h1, bind, Except.bind]
      rw [if_neg (by omega), show max 256 s.pc.toNat = s.pc.toNat + 1 by omega]
  · simp only [fetch, memRead_fault h0, bind, Except.bind]
    rw [if_neg (by omega), show max 256 s.pc.toNat = s.pc.toNat by omega]

/-- Everything a step that answers a next state can do: it was taken in Running, and it took the fault of the
fetch, ran the decoded instruction, or reported an unknown opcode. -/
theorem step_cases {s t : State} (h : step s = .next t) :
    s.mode = .running ∧
      ((∃ f, fetch s = .error f ∧ t = s.takeFault f) ∨
       (∃ f i, fetch s = .ok f ∧ decode f = .ok i ∧ exec i s = .next t) ∨
       (∃ f op, fetch s = .ok f ∧ decode f = .error (.unknownOpcode op) ∧ t = s.reportUnknown op)) := by
  unfold step cycle at h
  cases hm : s.mode <;> simp only [hm] at h
  case running =>
    refine ⟨rfl, ?_⟩
    unfold engineStep at h
    cases hf : fetch s with
    | error f => simp only [hf] at h; exact .inl ⟨f, rfl, by simpa using h.symm⟩
    | ok f =>
      simp only [hf] at h
      cases hd : decode f with
      | ok i => simp only [hd] at h; exact .inr (.inl ⟨f, i, rfl, hd, h⟩)
      | error e =>
        cases e with
        | unknownOpcode op =>
          simp only [hd] at h
          exact .inr (.inr ⟨f, op, rfl, hd, by simpa using h.symm⟩)
  all_goals exact absurd h (by simp)

end Sys2Proof.Machine
end

