-- ==== Sys2Proof/Laws/PerInstr.lean ====
section
/-! SUPPORT. Families of statements made per instruction. -/

namespace Sys2Proof.Laws

/-- The bytes an instruction encodes to are as many as its opcode byte's top two bits say
(spec/30_encoding.md R60, R62). -/
def EncodedLength.Statement (i : Instr) : Prop := (encode i).length = instrLength i.opcode

theorem EncodedLength.ldi (a imm : Byte) : EncodedLength.Statement (.ldi a imm) := by
  simp [EncodedLength.Statement, encode, Instr.opcode, Instr.operands]
theorem EncodedLength.prn (a : Byte) : EncodedLength.Statement (.prn a) := by
  simp [EncodedLength.Statement, encode, Instr.opcode, Instr.operands]
theorem EncodedLength.hlt : EncodedLength.Statement .hlt := by
  simp [EncodedLength.Statement, encode, Instr.opcode, Instr.operands]
theorem EncodedLength.add (a b : Byte) : EncodedLength.Statement (.add a b) := by
  simp [EncodedLength.Statement, encode, Instr.opcode, Instr.operands]
theorem EncodedLength.sub (a b : Byte) : EncodedLength.Statement (.sub a b) := by
  simp [EncodedLength.Statement, encode, Instr.opcode, Instr.operands]
theorem EncodedLength.mul (a b : Byte) : EncodedLength.Statement (.mul a b) := by
  simp [EncodedLength.Statement, encode, Instr.opcode, Instr.operands]
theorem EncodedLength.div (a b : Byte) : EncodedLength.Statement (.div a b) := by
  simp [EncodedLength.Statement, encode, Instr.opcode, Instr.operands]
theorem EncodedLength.cmp (a b : Byte) : EncodedLength.Statement (.cmp a b) := by
  simp [EncodedLength.Statement, encode, Instr.opcode, Instr.operands]
theorem EncodedLength.push (a : Byte) : EncodedLength.Statement (.push a) := by
  simp [EncodedLength.Statement, encode, Instr.opcode, Instr.operands]
theorem EncodedLength.pop (a : Byte) : EncodedLength.Statement (.pop a) := by
  simp [EncodedLength.Statement, encode, Instr.opcode, Instr.operands]

end Sys2Proof.Laws
end

