-- ==== Sys2Proof/Laws/Run.lean ====
section
/-! SUPPORT. Runs: one step at a time, and the induction over a run packaged once. -/

namespace Sys2Proof.Machine

@[simp] theorem reaches_zero (s t : State) : Reaches 0 s t ↔ t = s := by
  constructor
  · intro h; injection h with h; exact h.symm
  · rintro rfl; rfl

theorem core_run_succ (M : Host.Core) (k : Nat) (s t : M.State) :
    M.run (k + 1) s = .next t ↔ ∃ u, M.step s = .next u ∧ M.run k u = .next t := by
  simp only [Host.Core.run]
  cases M.step s <;> simp

theorem reaches_succ (k : Nat) (s t : State) :
    Reaches (k + 1) s t ↔ ∃ u, step s = .next u ∧ Reaches k u t :=
  core_run_succ Sys2Proof.core k s t

/-- What holds before a run and is kept by every step holds at the run's end. -/
theorem kept_along_run {P : State → Prop} (keep : ∀ s t, P s → step s = .next t → P t) {k : Nat} :
    ∀ {s t : State}, P s → Reaches k s t → P t := by
  induction k with
  | zero => intro s t hs h; rw [(reaches_zero s t).mp h]; exact hs
  | succ k ih =>
    intro s t hs h
    obtain ⟨u, hu, h⟩ := (reaches_succ k s t).mp h
    exact ih (keep s u hs hu) h

end Sys2Proof.Machine
end

