-- ==== Sys2Proof/Tests/Slice0.lean ====
section
/-! SUPPORT. Tests with results from spec/95_test_vectors.md and the rules' own examples (named in each comment),
the WellFormed smoke, and for every statement with hypotheses a witness that meets them. -/

namespace Sys2Proof.Machine.Tests

/-! ## Helpers -/

/-- Bytes at consecutive addresses. -/
def bytesAt (a : Nat) : List Byte → Memory → Memory
  | [], m => m
  | b :: bs, m => bytesAt (a + 1) bs (Memory.write m a b)

/-- A Running machine at `pc` with the given registers R0 to R7 and bytes at the pc. -/
def at8 (pc : Nat) (x : Vector Byte 8) (bytes : List Byte) : State :=
  { State.reset with x := x, pc := BitVec.ofNat 9 pc, mode := .running, mem := bytesAt pc bytes [] }

/-- The same with the reset registers. -/
def at0 (pc : Nat) (bytes : List Byte) : State := at8 pc State.reset.x bytes

/-- A small register file: R0, R1 and R7 given, the rest zero. -/
def regs (r0 r1 sp : Byte) : Vector Byte 8 := #v[r0, r1, 0, 0, 0, 0, 0, sp]

/-- The next state, if there is one. -/
def after : Host.Outcome State Fault Refusal → Option State
  | .next t => some t
  | .fault _ => none
  | .refused _ => none

/-! ## WellFormed smoke: one ill-formed term for each check (R142) -/

theorem test_wf_refuses_ldi_r8 : (Instr.ldi 8 1).wellFormed = false := by decide
theorem test_wf_refuses_prn_r8 : (Instr.prn 8).wellFormed = false := by decide
theorem test_wf_refuses_add_first : (Instr.add 8 0).wellFormed = false := by decide
theorem test_wf_refuses_add_second : (Instr.add 0 9).wellFormed = false := by decide
theorem test_wf_refuses_sub_first : (Instr.sub 255 0).wellFormed = false := by decide
theorem test_wf_refuses_sub_second : (Instr.sub 7 8).wellFormed = false := by decide
theorem test_wf_refuses_mul_first : (Instr.mul 8 7).wellFormed = false := by decide
theorem test_wf_refuses_mul_second : (Instr.mul 7 8).wellFormed = false := by decide
theorem test_wf_refuses_div_first : (Instr.div 9 1).wellFormed = false := by decide
theorem test_wf_refuses_div_second : (Instr.div 0 9).wellFormed = false := by decide
theorem test_wf_refuses_push_r8 : (Instr.push 8).wellFormed = false := by decide
theorem test_wf_refuses_pop_r8 : (Instr.pop 8).wellFormed = false := by decide

/-- LDI's immediate 9, CMP's numbers and HLT are not checked (R142). -/
theorem test_wf_accepts_unchecked_bytes :
    (Instr.ldi 7 9).wellFormed && (Instr.cmp 200 3).wellFormed && Instr.hlt.wellFormed = true := by decide

/-! ## Decoding: each constructor's word written out from R65's binary column -/

theorem test_decode_ldi : decode ⟨0b10000010, 0b00000011, 0b11111111⟩ = .ok (.ldi 3 255) := by rfl
theorem test_decode_prn : decode ⟨0b01000111, 0b00000111, 0b00000001⟩ = .ok (.prn 7) := by rfl
theorem test_decode_hlt : decode ⟨0b00000001, 0b10000010, 0b00000000⟩ = .ok .hlt := by rfl
theorem test_decode_add : decode ⟨0b10100000, 0b00000000, 0b00000001⟩ = .ok (.add 0 1) := by rfl
theorem test_decode_sub : decode ⟨0b10100001, 0b00000010, 0b00000000⟩ = .ok (.sub 2 0) := by rfl
theorem test_decode_mul : decode ⟨0b10100010, 0b00000000, 0b00000111⟩ = .ok (.mul 0 7) := by rfl
theorem test_decode_div : decode ⟨0b10100011, 0b00001001, 0b00000001⟩ = .ok (.div 9 1) := by rfl
theorem test_decode_cmp : decode ⟨0b10100111, 0b11001000, 0b00000011⟩ = .ok (.cmp 200 3) := by rfl
theorem test_decode_push : decode ⟨0b01000101, 0b00000111, 0b01000110⟩ = .ok (.push 7) := by rfl
theorem test_decode_pop : decode ⟨0b01000110, 0b00000001, 0b00000001⟩ = .ok (.pop 1) := by rfl

/-- 0xA4 has bit 5 set and is no ALU operation (R70, vector 2.7). -/
theorem test_decode_unknown : decode ⟨0xA4, 0, 1⟩ = .error (.unknownOpcode 0xA4) := by rfl

/-- S2's encoding of DIV R0,R1: `A3 00 01`. -/
theorem test_encode_div : encode (.div 0 1) = [0xA3, 0x00, 0x01] := by decide

/-- Table bits: byte 0 is bits 7:0, byte 1 bits 15:8, byte 2 bits 23:16; bits from nbits on are zero. -/
theorem test_table_word : decodeTableWord 24 0xFF0382 = some (.ldi 3 255) := by decide
theorem test_table_word_short : decodeTableWord 8 0xFF0382 = some (.ldi 0 0) := by decide

/-- The word placed after reset is the first instruction run: LDI R3,255 (vector 2.3). -/
theorem test_fetch_word_after_reset :
    (after (step (State.reset.withFetchWord 24 0xFF0382))).map (fun t => (t.x[3], t.pc, t.mode)) =
      some (255, 3, .running) := by decide

/-! ## LDI, PRN, HLT (vectors 2.3) -/

theorem test_ldi : (after (step (at0 0 [0x82, 3, 0xFF]))).map (fun t => (t.x[3], t.pc)) = some (255, 3) := by
  decide

theorem test_ldi_r8_faults :
    (after (step (at0 0 [0x82, 8, 1]))).map (fun t => (t.fault, t.mode, t.pc, t.x)) =
      some (some (.registerFault 8), .faulted, 0, State.reset.x) := by decide

theorem test_prn_r7 : (after (step (at0 0 [0x47, 7, 1]))).map (fun t => (t.trace, t.pc)) = some ([.out 244], 2) := by
  decide

theorem test_prn_r8_faults :
    (after (step (at0 0 [0x47, 8]))).map (fun t => (t.fault, t.trace)) = some (some (.registerFault 8), []) := by
  decide

theorem test_hlt : (after (step (at0 5 [0x01]))).map (fun t => (t.mode, t.pc)) = some (.halted, 6) := by decide

/-- Vector 2.2: an HLT at 254 faults instead of halting. -/
theorem test_hlt_at_254_faults :
    (after (step (at0 254 [0x01]))).map (fun t => (t.mode, t.fault, t.pc)) =
      some (.faulted, some (.addressingFault 256), 254) := by decide

/-! ## The ALU (vectors 2.4, 2.5) -/

theorem test_add : (after (step (at8 0 (regs 200 100 244) [0xA0, 0, 1]))).map (fun t => (t.x[0], t.x[1])) =
    some (44, 100) := by decide

theorem test_add_r8_r9_faults_on_first :
    (after (step (at0 0 [0xA0, 8, 9]))).map (·.fault) = some (some (.registerFault 8)) := by decide

theorem test_sub : (after (step (at8 0 (regs 44 48 244) [0xA1, 0, 1]))).map (fun t => (t.x[0], t.fl)) =
    some (252, 0) := by decide

/-- SUB R7,R0 with x[0] = 245: the stack pointer wraps to 255. -/
theorem test_sub_r7 : (after (step (at8 0 (regs 245 0 244) [0xA1, 7, 0]))).map (fun t => t.x[7]) = some 255 := by
  decide

theorem test_mul : (after (step (at8 0 (regs 200 100 244) [0xA2, 0, 1]))).map (fun t => t.x[0]) = some 32 := by
  decide

/-- MUL R0,R7 with x[0] = 2: R7 is an ordinary source. -/
theorem test_mul_r7 : (after (step (at8 0 (regs 2 0 244) [0xA2, 0, 7]))).map (fun t => t.x[0]) = some 232 := by
  decide

/-- 0xFF / 0x02 is unsigned: 127 (R117). -/
theorem test_div : (after (step (at8 0 (regs 255 2 244) [0xA3, 0, 1]))).map (fun t => t.x[0]) = some 127 := by
  decide

theorem test_div_by_zero :
    (after (step (at8 6 (regs 5 0 244) [0xA3, 0, 1]))).map (fun t => (t.fault, t.x[0], t.pc)) =
      some (some .divisionByZero, 5, 6) := by decide

/-- CMP R0,R1 sets L although x[0] > x[1] (R115's example). -/
theorem test_cmp_compares_indices :
    (after (step (at8 0 (regs 9 3 244) [0xA7, 0, 1]))).map (fun t => (t.fl, t.fault)) = some (0x04, none) := by
  decide

theorem test_cmp_r200 : (after (step (at0 0 [0xA7, 0xC8, 3]))).map (fun t => (t.fl, t.mode)) =
    some (0x02, .running) := by decide

/-! ## The stack (vectors 2.6) -/

theorem test_push : (after (step (at8 0 (regs 0x2A 0 244) [0x45, 0]))).map
    (fun t => (t.x[7], Memory.read t.mem 243, t.pc)) = some (243, 0x2A, 2) := by decide

/-- PUSH R7 stores the old stack pointer. -/
theorem test_push_r7 : (after (step (at0 0 [0x45, 7]))).map (fun t => (t.x[7], Memory.read t.mem 243)) =
    some (243, 244) := by decide

/-- POP from the empty stack: reads mem[244] = 0, SP becomes 245, no fault. -/
theorem test_pop_empty : (after (step (at8 0 (regs 1 0 244) [0x46, 0]))).map (fun t => (t.x[0], t.x[7], t.fault)) =
    some (0, 245, none) := by decide

/-- POP R8: the stack pointer is 244, not 245. -/
theorem test_pop_r8_faults : (after (step (at0 0 [0x46, 8]))).map (fun t => (t.fault, t.x[7])) =
    some (some (.registerFault 8), 244) := by decide

/-! ## Unknown opcodes (vectors 2.1, 2.7), the top of memory (2.2), the host's side -/

theorem test_unknown_c0 : (after (step (at0 0 [0xC0, 1, 1]))).map (fun t => (t.trace, t.pc, t.mode)) =
    some ([.unknown 0xC0 0], 4, .running) := by decide

theorem test_unknown_40_operand_unchecked : (after (step (at0 0 [0x40, 0xFF]))).map (fun t => (t.trace, t.pc, t.fault)) =
    some ([.unknown 0x40 0], 2, none) := by decide

theorem test_fetch_at_257 : (after (step (at0 257 []))).map (·.fault) = some (some (.addressingFault 257)) := by
  decide

/-- Writing the unwritten value removes the entry: equal memories are equal lists. -/
theorem test_memory_canonical : Memory.write (Memory.write [] 5 9) 5 0 = [] := by decide

/-- R101: the text "244" and a line feed. -/
theorem test_render : renderOut 244 = ['2', '4', '4', '\n'] := by decide

/-- The debug view at pc 255 shows one byte and raises nothing (R156). -/
theorem test_debug_view_at_top : (at0 255 [7]).debugView.bytes = [some 7, none, none] := by decide

/-- The fault codes of R140. -/
theorem test_fault_codes :
    ((FaultRecord.addressingFault 256).code, (FaultRecord.registerFault 8).code, FaultRecord.divisionByZero.code) =
      (1, 2, 3) := by decide

/-! ## Witnesses: a concrete state and operands that meet all hypotheses of each statement -/

/-- The invariant in a Running state. -/
theorem witness_inv : MachineInv (at0 0 [0x01]) :=
  ⟨by decide, by decide, by decide, by decide, (by intro f h; cases h), (by intro e h; cases h)⟩

theorem witness_EveryStepKeepsTheInvariant : ∃ s t, MachineInv s ∧ step s = .next t :=
  ⟨at0 0 [0x01], _, witness_inv, rfl⟩

theorem witness_EveryRunFromBootMeetsTheInvariant :
    ∃ gpr image s t k, boot gpr image = .next s ∧ Reaches k s t ∧ t.mode = .halted :=
  ⟨Config.resetGpr, [1], _, _, 1, rfl, rfl, rfl⟩

theorem witness_DecodeOfEncodeGivesTheInstructionBack :
    Fetched.ofBytes (encode .hlt ++ [7, 9]) = some ⟨1, 7, 9⟩ ∧
      Fetched.ofBytes (encode (.pop 255) ++ [0]) = some ⟨0x46, 255, 0⟩ ∧
      Fetched.ofBytes (encode (.ldi 0 255) ++ []) = some ⟨0x82, 0, 255⟩ := by decide

theorem witness_EncodeOfDecodeGivesTheFetchedBytes : decode ⟨0x01, 9, 9⟩ = .ok .hlt := by rfl

theorem witness_DispatchIsByExactOpcodeByte_clause1 :
    decode ⟨0xA0, 0, 1⟩ = .ok (.add 0 1) ∧ decode ⟨0xA0, 255, 8⟩ = .ok (.add 255 8) ∧
      (Instr.add 0 1).opcode = (Instr.add 255 8).opcode := ⟨rfl, rfl, rfl⟩

theorem witness_DispatchIsByExactOpcodeByte_clause2 :
    decode ⟨0x45, 0, 1⟩ = .ok (.push 0) ∧ (⟨0x45, 255, 255⟩ : Fetched).opcode = (⟨0x45, 0, 1⟩ : Fetched).opcode :=
  ⟨rfl, rfl⟩

/-- At the last pc a fetch succeeds at. -/
theorem witness_StepRunsTheDecodedInstruction :
    (at0 253 [0x46, 8, 1]).mode = .running ∧ (at0 253 [0x46, 8, 1]).pc.toNat ≤ 253 ∧
      decode (at0 253 [0x46, 8, 1]).fetched = .ok (.pop 8) := ⟨rfl, by decide, rfl⟩

/-- The four rows of R81's table. -/
theorem witness_FetchAbove253RaisesAddressingFault :
    (at0 254 []).mode = .running ∧ 253 < (at0 254 []).pc.toNat ∧ 253 < (at0 255 []).pc.toNat ∧
      253 < (at0 256 []).pc.toNat ∧ 253 < (at0 257 []).pc.toNat := by decide

theorem witness_UnknownOpcodeIsReportedAndSkipped :
    (at0 253 [0xC0]).mode = .running ∧ (at0 253 [0xC0]).pc.toNat ≤ 253 ∧ (at0 253 [0xC0]).fetched.opcode ∉
      ([0x82, 0x47, 0x01, 0xA0, 0xA1, 0xA2, 0xA3, 0xA7, 0x45, 0x46] : List Byte) := by decide

theorem witness_AStepExistsExactlyInRunning :
    State.reset.mode = .ready ∧ (at0 0 []).mode = .running ∧ (State.halt (at0 0 [])).mode = .halted ∧
      ((at0 0 []).takeFault .divisionByZero).mode = .faulted := by decide

/-- Both clauses: a faulting step and an advancing one at the highest pc and length. -/
theorem witness_PcAdvancesByTheOpcodesOwnLength :
    (∃ t, step (at0 257 []) = .next t ∧ t.mode = .faulted) ∧
      ∃ t, step (at0 253 [0xFF]) = .next t ∧ t.mode ≠ .faulted ∧ t.pc = 257 :=
  ⟨⟨_, rfl, rfl⟩, ⟨_, rfl, by decide, by decide⟩⟩

theorem witness_ModeChangesOnlyByHaltAndFault :
    (∃ t, step (at0 253 [0x01]) = .next t ∧ t.mode = .halted) ∧
      (∃ t, step (at0 254 [0x01]) = .next t ∧ t.mode = .faulted) ∧
      ∃ t, step (at0 0 [0x00]) = .next t ∧ t.mode = .running :=
  ⟨⟨_, rfl, rfl⟩, ⟨_, rfl, rfl⟩, ⟨_, rfl, rfl⟩⟩

/-- The register clauses of LdiLoadsTheImmediate, PrnEmitsTheRegister, PushStoresTheRegisterAtTheNewStackPointer
and PopLoadsTheByteAtTheStackPointer, at both sides of the bound. -/
theorem witness_one_register : (7 : Byte).toNat < 8 ∧ 8 ≤ (8 : Byte).toNat ∧ 8 ≤ (255 : Byte).toNat := by decide

/-- The clauses of AddWritesTheSumModulo256, SubWritesTheDifferenceModulo256, MulWritesTheProductModulo256,
DivWritesTheFloorOrFaults and AddSubMulAgreeWithSignedArithmetic: both valid, the first bad, the second bad. -/
theorem witness_two_registers :
    ((0 : Byte).toNat < 8 ∧ (7 : Byte).toNat < 8) ∧ 8 ≤ (8 : Byte).toNat ∧
      ((7 : Byte).toNat < 8 ∧ 8 ≤ (8 : Byte).toNat) := by decide

/-- DIV's clauses on values: a divisor of 1 and a divisor of 0. -/
theorem witness_DivWritesTheFloorOrFaults :
    (regs 5 1 244)[(1 : Byte).toNat].toNat ≠ 0 ∧ (regs 5 0 244)[(1 : Byte).toNat].toNat = 0 := by decide

theorem witness_AluDependsOnTheRegisterFileAlone :
    (at0 0 []).x = (at0 9 [0xA0]).x ∧ (at0 0 []).pc ≠ (at0 9 [0xA0]).pc := by decide

theorem witness_SameRegisterTwiceIsReadBeforeTheWrite :
    (regs 3 0 244)[(0 : Byte).toNat] ≠ 0 ∧ (regs 3 0 244)[(1 : Byte).toNat] = 0 := by decide

/-- Canonical memory with an entry, for MemWriteStoresTheValueModulo256, PushStackStoresBelowTheStackPointer and
PushStoresTheRegisterAtTheNewStackPointer; addresses at the bound. -/
theorem witness_canonical_memory :
    Memory.wf (at0 0 [0x45, 0]).mem = true ∧ (at0 0 [0x45, 0]).mem ≠ [] ∧ 255 ≤ 255 ∧ 255 < 256 := by decide

/-- PUSH R0, POP R1 at the highest pc that leaves room, and POP R7 for the exception. -/
theorem witness_PushThenPopRestoresTheStackPointer :
    let s := at8 251 (regs 9 0 0) [0x45, 0, 0x46, 1]
    Memory.wf s.mem = true ∧ s.mode = .running ∧ s.pc.toNat ≤ 251 ∧
      Memory.read s.mem s.pc.toNat = 0x45 ∧ Memory.read s.mem (s.pc.toNat + 1) = 0 ∧
      Memory.read s.mem (s.pc.toNat + 2) = 0x46 ∧ Memory.read s.mem (s.pc.toNat + 3) = 1 ∧
      (s.x[7].toNat + 255) % 256 ≠ s.pc.toNat + 2 ∧ (s.x[7].toNat + 255) % 256 ≠ s.pc.toNat + 3 := by decide

theorem witness_PushThenPopRestoresTheStackPointer_r7 :
    let s := at0 0 [0x45, 7, 0x46, 7]
    Memory.wf s.mem = true ∧ s.mode = .running ∧ s.pc.toNat ≤ 251 ∧
      Memory.read s.mem s.pc.toNat = 0x45 ∧ Memory.read s.mem (s.pc.toNat + 1) = 7 ∧
      Memory.read s.mem (s.pc.toNat + 2) = 0x46 ∧ Memory.read s.mem (s.pc.toNat + 3) = 7 ∧
      (s.x[7].toNat + 255) % 256 ≠ s.pc.toNat + 2 ∧ (s.x[7].toNat + 255) % 256 ≠ s.pc.toNat + 3 := by decide

/-- Program P3: the stack pointer in the code, PUSH R0 at 6 writes address 8. -/
theorem witness_PushIntoCodeIsFetchedByTheNextStep :
    let s := at8 6 (regs 1 0 9) [0x45, 0, 0x47, 0, 0x01]
    Memory.wf s.mem = true ∧ s.mode = .running ∧ s.pc.toNat ≤ 251 ∧
      Memory.read s.mem s.pc.toNat = 0x45 ∧ Memory.read s.mem (s.pc.toNat + 1) = 0 ∧
      (s.x[7].toNat + 255) % 256 = s.pc.toNat + 2 := by decide

/-- The same for r = 7, at the highest pc: PUSH R7 at 251 with SP 254 writes address 253. -/
theorem witness_PushIntoCodeIsFetchedByTheNextStep_r7 :
    let s := at8 251 (regs 0 0 254) [0x45, 7]
    Memory.wf s.mem = true ∧ s.mode = .running ∧ s.pc.toNat ≤ 251 ∧
      Memory.read s.mem s.pc.toNat = 0x45 ∧ Memory.read s.mem (s.pc.toNat + 1) = 7 ∧
      (s.x[7].toNat + 255) % 256 = s.pc.toNat + 2 := by decide

theorem witness_OnlyPushWritesMemory :
    ∃ t, step (at8 0 (regs 1 0 244) [0x45, 0]) = .next t ∧
      Memory.read t.mem 243 ≠ Memory.read (at8 0 (regs 1 0 244) [0x45, 0]).mem 243 :=
  ⟨_, rfl, by decide⟩

/-- A storing and a non-storing instruction, each with the register outside its written ones. -/
theorem witness_EveryInstructionKeepsItsFrame :
    (∃ t, exec (.push 0) (at0 0 []) = .next t ∧ 0 ∉ writtenRegs (.push 0) ∧ 0 ≠ (pushAddr (at0 0 [])).toNat) ∧
      ∃ t, exec (.add 0 1) (at0 0 []) = .next t ∧ 1 ∉ writtenRegs (.add 0 1) :=
  ⟨⟨_, rfl, by decide, by decide⟩, ⟨_, rfl, by decide⟩⟩

/-- A CMP that changes the flags, and a step with another flags byte. -/
theorem witness_FlagsAreWrittenByCmpAndReadByNothing :
    ∃ t, step (at0 0 [0xA7, 0, 1]) = .next t ∧ t.fl ≠ (at0 0 [0xA7, 0, 1]).fl := ⟨_, rfl, by decide⟩

theorem witness_TraceIsAppendOnlyAndNeverRead :
    ∃ t, step (at0 0 [0x47, 7]) = .next t ∧ t.trace = [.out 244] := ⟨_, rfl, by decide⟩

theorem witness_DivisionByZeroIsRaisedByDivAlone :
    ∃ t, exec (.div 0 1) (at0 0 []) = .next t ∧ (at0 0 []).fault ≠ some .divisionByZero ∧
      t.fault = some .divisionByZero := ⟨_, rfl, by decide, rfl⟩

/-- Each of the three causes, from a state with no fault recorded. -/
theorem witness_EachFaultHasExactlyItsCause :
    (∃ t, (at0 254 []).fault = none ∧ step (at0 254 []) = .next t ∧ t.fault = some (.addressingFault 256)) ∧
      (∃ t, step (at0 253 [0x47, 255]) = .next t ∧ t.fault = some (.registerFault 255)) ∧
      ∃ t, step (at0 0 [0xA3, 0, 1]) = .next t ∧ t.fault = some .divisionByZero :=
  ⟨⟨_, rfl, rfl, rfl⟩, ⟨_, rfl, rfl⟩, ⟨_, rfl, rfl⟩⟩

theorem witness_FaultsArePrecise :
    (∃ t, step (at0 0 [0x46, 8]) = .next t ∧ t.mode = .faulted) ∧
      ∃ t, step (at0 0 [0x46, 7]) = .next t ∧ t.mode ≠ .faulted :=
  ⟨⟨_, rfl, rfl⟩, ⟨_, rfl, by decide⟩⟩

theorem witness_EveryRunEndsWithin255Steps : (at0 0 []).mode = .running := by rfl

/-- A Running state at pc 253 with zeros to the top. -/
theorem witness_FallingOffTheEndReportsEveryZeroByte :
    (at0 253 []).mode = .running ∧ (at0 253 []).pc.toNat ≤ 253 ∧
      ∀ addr, (at0 253 []).pc.toNat ≤ addr → addr ≤ 255 → Memory.read (at0 253 []).mem addr = 0 :=
  ⟨rfl, by decide, fun _ _ _ => rfl⟩

/-- Lengths 256 and 257, at the bound of BootLoadsTheImageAndLaunches. -/
theorem witness_BootLoadsTheImageAndLaunches :
    (List.replicate 256 7).length ≤ 256 ∧ 256 < (List.replicate 257 7).length :=
  ⟨by rw [List.length_replicate], by rw [List.length_replicate]; decide⟩

theorem witness_HostActsOnlyInReady : (at0 0 []).mode ≠ .ready ∧ State.reset.mode = .ready := by decide

theorem witness_PlacedWordIsRunByTheNextStep :
    Memory.wf State.reset.mem = true ∧ State.reset.pc.toNat ≤ 253 ∧ decodeTableWord 16 0xFF47 = some (.prn 255) := by
  decide

end Sys2Proof.Machine.Tests
end

section
/-! PROOFS. What MemRead answers after a store, and what a push leaves in the cell at the new stack pointer
(spec/20_memory.md R42; spec/43_stack.md R130). -/

namespace Sys2Proof.Machine

/-- MemRead of the address just stored to. -/
theorem memRead_setMem_write_same {s : State} (hm : Memory.wf s.mem = true) {addr : Nat} (h : addr < 256)
    (v : Byte) : memRead (s.setMem (Memory.write s.mem addr v)) addr = .ok v := by
  rw [memRead_ok h, State.setMem_mem, Memory.read_write_same hm]

/-- MemRead of any other address, inside Memory or not, does not see the store. -/
theorem memRead_setMem_write_other (s : State) {addr other : Nat} (v : Byte) (h : other ≠ addr) :
    memRead (s.setMem (Memory.write s.mem addr v)) other = memRead s other := by
  by_cases hb : other < 256
  · rw [memRead_ok hb, memRead_ok hb, State.setMem_mem, Memory.read_write_other s.mem v h.symm]
  · rw [memRead_fault hb, memRead_fault hb]

/-- A push cannot fault, and the cell at the new stack pointer then holds the byte whole. -/
theorem pushStack_stores {s : State} (hm : Memory.wf s.mem = true) (v : Byte) :
    ∃ t : State, pushStack s v = .ok t ∧ Memory.read t.mem (pushAddr s).toNat = v :=
  ⟨_, pushStack_eq s v, Memory.read_write_same hm _ v⟩

/-- Settles O27: MemWrite stores the narrowed value (its remainder modulo 256) or faults by the bound of Memory;
a push passes it a byte and an 8-bit address, so it neither faults nor truncates. -/
theorem memWriteStoresTheValueModulo256 : Obligations.MemWriteStoresTheValueModulo256 := by
  intro s hm
  refine ⟨fun addr v haddr => ?_, fun addr v haddr => memWrite_fault (by omega) s v, pushStack_stores hm⟩
  have hlt : addr < 256 := by omega
  exact ⟨s.setMem (Memory.write s.mem addr (narrow v)), memWrite_ok hlt s v, rfl,
    ⟨narrow v, memRead_setMem_write_same hm hlt _, toNat_narrow v⟩,
    fun other hother => memRead_setMem_write_other s _ hother⟩

end Sys2Proof.Machine
end

section
/-! PROOFS. The decoder's domain is the ten opcode bytes, and an accepted word's opcode byte is its
instruction's (spec/30_encoding.md R66). -/

namespace Sys2Proof

/-- Every instruction's opcode byte is one of the ten of R65. -/
theorem Instr.opcode_mem_definedOpcodes (i : Instr) : i.opcode ∈ definedOpcodes := by
  cases i <;> simp [Instr.opcode, definedOpcodes]

/-- The decoder rejects no defined opcode byte, whatever operand bytes follow it. -/
theorem decode_ok_of_mem_definedOpcodes {f : Fetched} (h : f.opcode ∈ definedOpcodes) :
    ∃ i, decode f = .ok i := by
  cases hd : decode f with
  | ok i => exact ⟨i, rfl⟩
  | error e =>
    obtain ⟨op⟩ := e
    obtain ⟨rfl, hnot⟩ := decode_reject hd
    exact absurd h hnot

/-- The words the decoder accepts are exactly those with a defined opcode byte. -/
theorem decode_ok_iff {f : Fetched} : (∃ i, decode f = .ok i) ↔ f.opcode ∈ definedOpcodes :=
  ⟨fun ⟨i, h⟩ => decode_opcode h ▸ i.opcode_mem_definedOpcodes, decode_ok_of_mem_definedOpcodes⟩

end Sys2Proof

namespace Sys2Proof.Machine

/-- Settles O7: an accepted word's opcode byte is its instruction's, and whether a word is accepted depends on
that byte alone. -/
theorem dispatchIsByExactOpcodeByte : Obligations.DispatchIsByExactOpcodeByte := by
  constructor
  · intro f g i j hf hg hij
    calc f.opcode = i.opcode := (decode_opcode hf).symm
      _ = j.opcode := hij
      _ = g.opcode := decode_opcode hg
  · intro f g i hf hgf
    have hmem : g.opcode ∈ definedOpcodes := hgf ▸ decode_ok_iff.mp ⟨i, hf⟩
    obtain ⟨j, hj⟩ := decode_ok_iff.mpr hmem
    refine ⟨j, hj, ?_⟩
    calc j.opcode = g.opcode := decode_opcode hj
      _ = f.opcode := hgf
      _ = i.opcode := (decode_opcode hf).symm

end Sys2Proof.Machine
end

section
/-! PROOFS. LDI: its encoding, and the two answers of its arm (spec/41_ldi_prn_hlt.md R100). -/

namespace Sys2Proof

/-- LDI's opcode byte selects LDI, with both operand bytes as they stand. -/
theorem decode_ldi (a v : Byte) : decode ⟨Opcode.ldi, a, v⟩ = .ok (.ldi a v) := by
  simp [decode]

end Sys2Proof

namespace Sys2Proof.Machine

theorem exec_ldi (a v : Byte) (s : State) : exec (.ldi a v) s = execLdi a v s := rfl

theorem exec_ldi_of_lt {a : Byte} (h : a.toNat < 8) (v : Byte) (s : State) :
    exec (.ldi a v) s = .next ((s.setX ⟨a.toNat, h⟩ v).advance 3) := by
  rw [exec_ldi, execLdi_eq, dif_pos h]

theorem exec_ldi_of_ge {a : Byte} (h : 8 ≤ a.toNat) (v : Byte) (s : State) :
    exec (.ldi a v) s = .next (s.takeFault (.registerFault a)) := by
  rw [exec_ldi, execLdi_eq, dif_neg (Nat.not_lt.mpr h)]

/-- Settles O16: the two answers of LDI's arm are the states the statement writes out, field by field. -/
theorem ldiLoadsTheImmediate : Obligations.LdiLoadsTheImmediate := fun s a v =>
  ⟨decode_ldi a v, fun h => exec_ldi_of_lt h v s, fun h => exec_ldi_of_ge h v s⟩

end Sys2Proof.Machine
end

section
/-! PROOFS. ADD, SUB and MUL: their encodings, and the answers of the one shape they share with DIV
(spec/42_alu.md R110 to R113). -/

namespace Sys2Proof

/-- ADD's opcode byte selects ADD, with both operand bytes as they stand. -/
theorem decode_add (a b : Byte) : decode ⟨Opcode.add, a, b⟩ = .ok (.add a b) := rfl

/-- SUB's opcode byte selects SUB, with both operand bytes as they stand. -/
theorem decode_sub (a b : Byte) : decode ⟨Opcode.sub, a, b⟩ = .ok (.sub a b) := rfl

/-- MUL's opcode byte selects MUL, with both operand bytes as they stand. -/
theorem decode_mul (a b : Byte) : decode ⟨Opcode.mul, a, b⟩ = .ok (.mul a b) := rfl

end Sys2Proof

namespace Sys2Proof.Machine

/-! ## The shape of a register result, whatever `f` computes -/

/-- Both indices valid and `f` without a fault: the narrowed result is in `x[a]` and the pc has advanced. -/
theorem complete_aluRegister_of_ok {f : Byte → Byte → Except FaultRecord Int} {a b : Byte} {s : State} {r : Int}
    (op : Byte) (ha : a.toNat < 8) (hb : b.toNat < 8) (hf : f s.x[a.toNat] s.x[b.toNat] = .ok r) :
    complete op s (aluRegister f a b s) =
      .next ((s.setX ⟨a.toNat, ha⟩ (narrow r)).advance (instrLength op)) := by
  rw [aluRegister_eq, dif_pos ha, dif_pos hb, hf, Except.map, complete_ok]

/-- A bad first index is the fault, whatever the second. -/
theorem complete_aluRegister_fault_first {a : Byte} (op : Byte) (f : Byte → Byte → Except FaultRecord Int)
    (b : Byte) (s : State) (ha : 8 ≤ a.toNat) :
    complete op s (aluRegister f a b s) = .next (s.takeFault (.registerFault a)) := by
  rw [aluRegister_eq, dif_neg (Nat.not_lt.mpr ha), complete_error]

/-- After a valid first index a bad second one is the fault. -/
theorem complete_aluRegister_fault_second {a b : Byte} (op : Byte) (f : Byte → Byte → Except FaultRecord Int)
    (s : State) (ha : a.toNat < 8) (hb : 8 ≤ b.toNat) :
    complete op s (aluRegister f a b s) = .next (s.takeFault (.registerFault b)) := by
  rw [aluRegister_eq, dif_pos ha, dif_neg (Nat.not_lt.mpr hb), complete_error]

/-- A narrowed natural number is its remainder modulo 256, as a natural number. -/
theorem toNat_narrow_natCast (n : Nat) : (narrow (n : Int)).toNat = n % 256 := by
  exact_mod_cast toNat_narrow n

/-! ## The three arms of `exec` -/

theorem exec_add (a b : Byte) (s : State) :
    exec (.add a b) s = complete Opcode.add s (aluRegister aluAdd a b s) := rfl

theorem exec_sub (a b : Byte) (s : State) :
    exec (.sub a b) s = complete Opcode.sub s (aluRegister aluSub a b s) := rfl

theorem exec_mul (a b : Byte) (s : State) :
    exec (.mul a b) s = complete Opcode.mul s (aluRegister aluMul a b s) := rfl

section ValidIndices

variable {a b : Byte} (ha : a.toNat < 8) (hb : b.toNat < 8) (s : State)

theorem exec_add_of_lt :
    exec (.add a b) s =
      .next ((s.setX ⟨a.toNat, ha⟩ (narrow (s.x[a.toNat].toNat + s.x[b.toNat].toNat))).advance 3) := by
  rw [exec_add, complete_aluRegister_of_ok Opcode.add ha hb rfl, instrLength_add]

theorem exec_sub_of_lt :
    exec (.sub a b) s =
      .next ((s.setX ⟨a.toNat, ha⟩ (narrow (s.x[a.toNat].toNat - s.x[b.toNat].toNat))).advance 3) := by
  rw [exec_sub, complete_aluRegister_of_ok Opcode.sub ha hb rfl, instrLength_sub]

theorem exec_mul_of_lt :
    exec (.mul a b) s =
      .next ((s.setX ⟨a.toNat, ha⟩ (narrow (s.x[a.toNat].toNat * s.x[b.toNat].toNat))).advance 3) := by
  rw [exec_mul, complete_aluRegister_of_ok Opcode.mul ha hb rfl, instrLength_mul]

end ValidIndices

/-- Settles O19: the byte written is the narrowed exact sum, so it is the sum's remainder modulo 256; the two
faults are those of the shared shape. -/
theorem addWritesTheSumModulo256 : Obligations.AddWritesTheSumModulo256 := by
  intro s a b
  refine ⟨decode_add a b, fun ha hb => ⟨_, ?_, exec_add_of_lt ha hb s⟩,
    complete_aluRegister_fault_first Opcode.add aluAdd b s,
    complete_aluRegister_fault_second Opcode.add aluAdd s⟩
  rw [← Int.natCast_add, toNat_narrow_natCast]

/-- Settles O20: the byte written is the narrowed exact difference, whose remainder modulo 256 is taken on the
integers, so that it is right also below zero. -/
theorem subWritesTheDifferenceModulo256 : Obligations.SubWritesTheDifferenceModulo256 := fun s a b =>
  ⟨decode_sub a b, fun ha hb => ⟨_, toNat_narrow _, exec_sub_of_lt ha hb s⟩,
    complete_aluRegister_fault_first Opcode.sub aluSub b s,
    complete_aluRegister_fault_second Opcode.sub aluSub s⟩

/-- Settles O21: the byte written is the narrowed exact product, so it is the product's remainder modulo 256; the
two faults are those of the shared shape. -/
theorem mulWritesTheProductModulo256 : Obligations.MulWritesTheProductModulo256 := by
  intro s a b
  refine ⟨decode_mul a b, fun ha hb => ⟨_, ?_, exec_mul_of_lt ha hb s⟩,
    complete_aluRegister_fault_first Opcode.mul aluMul b s,
    complete_aluRegister_fault_second Opcode.mul aluMul s⟩
  rw [← Int.natCast_mul, toNat_narrow_natCast]

end Sys2Proof.Machine
end

section
/-! PROOFS. The stack primitives: where the stack pointer goes, and which byte each touches (spec/43_stack.md
R130, R131). -/

namespace Sys2Proof.Machine

/-- The stack pointer a pop leaves, as a number. -/
theorem toNat_narrow_sp_succ (s : State) :
    (narrow ((s.sp.toNat : Int) + 1)).toNat = (s.sp.toNat + 1) % 256 := by
  rw [← Int.natCast_succ, toNat_narrow_natCast]

/-- Settles O28: by `pushStack_eq` the new state differs in the stack pointer and in Memory alone, and Memory is
the old one after one store at the new stack pointer. -/
theorem pushStackStoresBelowTheStackPointer : Obligations.PushStackStoresBelowTheStackPointer := by
  intro s v hm
  refine ⟨_, pushAddr s, pushStack_eq s v, pushAddr_toNat s, rfl, ?stored, ?others⟩
  case stored => exact Memory.read_write_same hm _ v
  case others => exact fun addr haddr => Memory.read_write_other s.mem v haddr.symm

/-- Settles O29: by `popStack_eq` the answer is the byte at the old stack pointer, and the new state differs in
the stack pointer alone. -/
theorem popStackReadsAtTheStackPointer : Obligations.PopStackReadsAtTheStackPointer := fun s =>
  ⟨narrow ((s.sp.toNat : Int) + 1), toNat_narrow_sp_succ s, popStack_eq s⟩

end Sys2Proof.Machine
end

section
/-! PROOFS. Which fault an instruction can record, and that DivisionByZero is DIV's alone (spec/60_exceptions.md
R142, R143). -/

namespace Sys2Proof.Machine

/-- The condition of R143: DIV with both register indices valid and a zero divisor register. -/
def DividesByZero (i : Instr) (s : State) : Prop :=
  ∃ (a b : Byte) (_ : a.toNat < 8) (hb : b.toNat < 8), i = .div a b ∧ s.x[b.toNat] = 0

/-- The next state has the old fault record, or is the old state with a RegisterFault taken. -/
def KeepsRecordOrRegisterFault (s t : State) : Prop :=
  t.fault = s.fault ∨ ∃ k, t = s.takeFault (.registerFault k)

/-! ## The shapes of the arms -/

/-- The shape of LDI, PRN, PUSH and POP: one index check before an effect that keeps the fault record. -/
theorem keepsRecordOrRegisterFault_of_checked {a : Byte} {s t : State} {u : a.toNat < 8 → State}
    (h : (if ha : a.toNat < 8 then .next (u ha) else .next (s.takeFault (.registerFault a)) :
      Host.Outcome State Fault Refusal) = .next t)
    (hu : ∀ ha, (u ha).fault = s.fault) : KeepsRecordOrRegisterFault s t := by
  by_cases ha : a.toNat < 8
  · rw [dif_pos ha] at h
    cases h
    exact .inl (hu ha)
  · rw [dif_neg ha] at h
    cases h
    exact .inr ⟨a, rfl⟩

/-- Both indices valid and a fault of `f`: that fault is taken from the state before the step. -/
theorem complete_aluRegister_of_error {f : Byte → Byte → Except FaultRecord Int} {a b : Byte} {s : State}
    {e : FaultRecord} (op : Byte) (ha : a.toNat < 8) (hb : b.toNat < 8)
    (hf : f s.x[a.toNat] s.x[b.toNat] = .error e) :
    complete op s (aluRegister f a b s) = .next (s.takeFault e) := by
  rw [aluRegister_eq, dif_pos ha, dif_pos hb, hf, Except.map, complete_error]

/-- The shape of ADD, SUB, MUL and DIV: the only fault beyond RegisterFault is one of `f` on the two register
values. -/
theorem complete_aluRegister_fault_cases {f : Byte → Byte → Except FaultRecord Int} {op a b : Byte} {s t : State}
    (h : complete op s (aluRegister f a b s) = .next t) :
    KeepsRecordOrRegisterFault s t ∨ ∃ (_ : a.toNat < 8) (_ : b.toNat < 8) (e : FaultRecord),
      f s.x[a.toNat] s.x[b.toNat] = .error e ∧ t = s.takeFault e := by
  by_cases ha : a.toNat < 8
  · by_cases hb : b.toNat < 8
    · cases hf : f s.x[a.toNat] s.x[b.toNat] with
      | ok r =>
        rw [complete_aluRegister_of_ok op ha hb hf] at h
        cases h
        exact .inl (.inl rfl)
      | error e =>
        rw [complete_aluRegister_of_error op ha hb hf] at h
        cases h
        exact .inr ⟨ha, hb, e, hf, rfl⟩
    · rw [complete_aluRegister_fault_second op f s ha (Nat.le_of_not_lt hb)] at h
      cases h
      exact .inl (.inr ⟨b, rfl⟩)
  · rw [complete_aluRegister_fault_first op f b s (Nat.le_of_not_lt ha)] at h
    cases h
    exact .inl (.inr ⟨a, rfl⟩)

/-- An ALU operation that always has a result (ADD, SUB, MUL) can raise RegisterFault only. -/
theorem complete_aluRegister_of_total {f : Byte → Byte → Except FaultRecord Int} {op a b : Byte} {s t : State}
    (hf : ∀ va vb, ∃ r, f va vb = .ok r) (h : complete op s (aluRegister f a b s) = .next t) :
    KeepsRecordOrRegisterFault s t := by
  obtain hkeep | ⟨_, _, e, he, -⟩ := complete_aluRegister_fault_cases h
  · exact hkeep
  · obtain ⟨r, hr⟩ := hf s.x[a.toNat] s.x[b.toNat]
    cases hr.symm.trans he

/-- Division faults exactly on a zero divisor, and then with DivisionByZero. -/
theorem aluDiv_error_iff {va vb : Byte} {e : FaultRecord} :
    aluDiv va vb = .error e ↔ vb = 0 ∧ e = .divisionByZero := by
  by_cases hvb : vb.toNat = 0
  · have hzero : vb = 0 := BitVec.eq_of_toNat_eq hvb
    simp [aluDiv, hzero, eq_comm]
  · have hne : vb ≠ 0 := fun hzero => hvb (by rw [hzero]; rfl)
    simp only [aluDiv, if_neg hvb, hne, reduceCtorEq, false_and]

/-! ## The instructions -/

theorem exec_div (a b : Byte) (s : State) :
    exec (.div a b) s = complete Opcode.div s (aluRegister aluDiv a b s) := rfl

/-- Under the condition of R143 the fault is taken, whatever the dividend. -/
theorem exec_of_dividesByZero {i : Instr} {s : State} (h : DividesByZero i s) :
    exec i s = .next (s.takeFault .divisionByZero) := by
  obtain ⟨a, b, ha, hb, rfl, hzero⟩ := h
  rw [exec_div, complete_aluRegister_of_error Opcode.div ha hb (aluDiv_error_iff.mpr ⟨hzero, rfl⟩)]

/-- All an instruction can do to the fault record: keep it, record a RegisterFault, or take DivisionByZero under
the condition of R143. -/
theorem exec_fault_cases {i : Instr} {s t : State} (h : exec i s = .next t) :
    KeepsRecordOrRegisterFault s t ∨ DividesByZero i s ∧ t = s.takeFault .divisionByZero := by
  cases i with
  | ldi a imm => exact .inl (keepsRecordOrRegisterFault_of_checked ((execLdi_eq a imm s).symm.trans h) fun _ => rfl)
  | prn a => exact .inl (keepsRecordOrRegisterFault_of_checked ((execPrn_eq a s).symm.trans h) fun _ => rfl)
  | push a => exact .inl (keepsRecordOrRegisterFault_of_checked ((execPush_eq a s).symm.trans h) fun _ => rfl)
  | pop a => exact .inl (keepsRecordOrRegisterFault_of_checked ((execPop_eq a s).symm.trans h) fun _ => rfl)
  | add a b => exact .inl (complete_aluRegister_of_total (fun _ _ => ⟨_, rfl⟩) ((exec_add a b s).symm.trans h))
  | sub a b => exact .inl (complete_aluRegister_of_total (fun _ _ => ⟨_, rfl⟩) ((exec_sub a b s).symm.trans h))
  | mul a b => exact .inl (complete_aluRegister_of_total (fun _ _ => ⟨_, rfl⟩) ((exec_mul a b s).symm.trans h))
  | hlt =>
    cases (execHlt_eq s).symm.trans h
    exact .inl (.inl rfl)
  | cmp a b =>
    cases (execCmp_eq a b s).symm.trans h
    exact .inl (.inl rfl)
  | div a b =>
    obtain hkeep | ⟨ha, hb, e, he, rfl⟩ := complete_aluRegister_fault_cases ((exec_div a b s).symm.trans h)
    · exact .inl hkeep
    · obtain ⟨hzero, rfl⟩ := aluDiv_error_iff.mp he
      exact .inr ⟨⟨a, b, ha, hb, rfl, hzero⟩, rfl⟩

/-- A step from a state without the record has it only by taking it under the condition of R143: the two other
cases leave a different record. -/
theorem dividesByZero_of_records {i : Instr} {s t : State} (h : exec i s = .next t)
    (hs : s.fault ≠ some .divisionByZero) (ht : t.fault = some .divisionByZero) :
    DividesByZero i s ∧ t = s.takeFault .divisionByZero := by
  obtain (hkept | ⟨k, rfl⟩) | hdiv := exec_fault_cases h
  · exact absurd (hkept.symm.trans ht) hs
  · simp at ht
  · exact hdiv

/-- Settles O38: by the inversion of `exec` the record can come from DIV's zero divisor alone, where taking the
fault changes no register; conversely that condition determines the next state. -/
theorem divisionByZeroIsRaisedByDivAlone : Obligations.DivisionByZeroIsRaisedByDivAlone := by
  intro i s t h hs
  refine ⟨⟨fun ht => (dividesByZero_of_records h hs ht).1, fun hdiv => ?_⟩, fun ht => ?_⟩
  · cases (exec_of_dividesByZero hdiv).symm.trans h
    rfl
  · obtain ⟨-, rfl⟩ := dividesByZero_of_records h hs ht
    rfl

end Sys2Proof.Machine
end

section
/-! PROOFS. The decoder and the encoder are inverse: a fetched word decodes to `i` exactly when it begins with the
bytes of `i` (spec/30_encoding.md R60 to R66). -/

namespace Sys2Proof

/-- PRN's opcode byte selects PRN; the second operand byte is unused. -/
theorem decode_prn (a b : Byte) : decode ⟨Opcode.prn, a, b⟩ = .ok (.prn a) := rfl

/-- HLT's opcode byte selects HLT; both operand bytes are unused. -/
theorem decode_hlt (a b : Byte) : decode ⟨Opcode.hlt, a, b⟩ = .ok .hlt := rfl

/-- DIV's opcode byte selects DIV, with both operand bytes as they stand. -/
theorem decode_div (a b : Byte) : decode ⟨Opcode.div, a, b⟩ = .ok (.div a b) := rfl

/-- CMP's opcode byte selects CMP, with both operand bytes as they stand. -/
theorem decode_cmp (a b : Byte) : decode ⟨Opcode.cmp, a, b⟩ = .ok (.cmp a b) := rfl

/-- PUSH's opcode byte selects PUSH; the second operand byte is unused. -/
theorem decode_push (a b : Byte) : decode ⟨Opcode.push, a, b⟩ = .ok (.push a) := rfl

/-- POP's opcode byte selects POP; the second operand byte is unused. -/
theorem decode_pop (a b : Byte) : decode ⟨Opcode.pop, a, b⟩ = .ok (.pop a) := rfl

/-- An encoding is as long as its opcode byte's top two bits say. -/
theorem length_encode (i : Instr) : (encode i).length = instrLength i.opcode := by
  cases i with
  | ldi a v => exact Laws.EncodedLength.ldi a v
  | prn a => exact Laws.EncodedLength.prn a
  | hlt => exact Laws.EncodedLength.hlt
  | add a b => exact Laws.EncodedLength.add a b
  | sub a b => exact Laws.EncodedLength.sub a b
  | mul a b => exact Laws.EncodedLength.mul a b
  | div a b => exact Laws.EncodedLength.div a b
  | cmp a b => exact Laws.EncodedLength.cmp a b
  | push a => exact Laws.EncodedLength.push a
  | pop a => exact Laws.EncodedLength.pop a

/-- No encoding is longer than the three bytes a fetch reads. -/
theorem length_encode_le (i : Instr) : (encode i).length ≤ 3 := by
  cases i <;> simp [encode, Instr.operands]

/-- A run of bytes begins with the three bytes taken from it. -/
theorem Fetched.bytes_prefix_of_ofBytes {l : List Byte} {f : Fetched} (h : Fetched.ofBytes l = some f) :
    f.bytes <+: l := by
  match l, h with
  | op :: a :: b :: rest, rfl => exact ⟨rest, rfl⟩

/-! ## The three shapes of an encoding: no operand byte, one, or two -/

theorem encode_prefix_bytes_zero {op : Byte} {f : Fetched} : [op] <+: f.bytes ↔ f.opcode = op := by
  simp [Fetched.bytes, List.cons_prefix_cons, eq_comm]

theorem encode_prefix_bytes_one {op a : Byte} {f : Fetched} :
    [op, a] <+: f.bytes ↔ ∃ b, f = ⟨op, a, b⟩ := by
  obtain ⟨o, x, y⟩ := f
  simp [Fetched.bytes, List.cons_prefix_cons, eq_comm]

theorem encode_prefix_bytes_two {op a b : Byte} {f : Fetched} :
    [op, a, b] <+: f.bytes ↔ f = ⟨op, a, b⟩ := by
  obtain ⟨o, x, y⟩ := f
  simp [Fetched.bytes, List.cons_prefix_cons, eq_comm]

/-- A word that begins with an instruction's bytes decodes to that instruction. -/
theorem decode_of_encode_prefix {f : Fetched} {i : Instr} (h : encode i <+: f.bytes) : decode f = .ok i := by
  cases i with
  | hlt => obtain ⟨_, a, b⟩ := f; obtain rfl := encode_prefix_bytes_zero.mp h; exact decode_hlt a b
  | prn a => obtain ⟨b, rfl⟩ := encode_prefix_bytes_one.mp h; exact decode_prn a b
  | push a => obtain ⟨b, rfl⟩ := encode_prefix_bytes_one.mp h; exact decode_push a b
  | pop a => obtain ⟨b, rfl⟩ := encode_prefix_bytes_one.mp h; exact decode_pop a b
  | ldi a b => obtain rfl := encode_prefix_bytes_two.mp h; exact decode_ldi a b
  | add a b => obtain rfl := encode_prefix_bytes_two.mp h; exact decode_add a b
  | sub a b => obtain rfl := encode_prefix_bytes_two.mp h; exact decode_sub a b
  | mul a b => obtain rfl := encode_prefix_bytes_two.mp h; exact decode_mul a b
  | div a b => obtain rfl := encode_prefix_bytes_two.mp h; exact decode_div a b
  | cmp a b => obtain rfl := encode_prefix_bytes_two.mp h; exact decode_cmp a b

/-- An accepted word begins with the bytes of its instruction: its opcode byte is the instruction's, and that
byte fixes the answer of the decoder. -/
theorem encode_prefix_of_decode {f : Fetched} {i : Instr} (h : decode f = .ok i) : encode i <+: f.bytes := by
  obtain ⟨op, a, b⟩ := f
  obtain rfl : i.opcode = op := decode_opcode h
  cases i with
  | hlt => exact encode_prefix_bytes_zero.mpr rfl
  | prn _ => cases (decode_prn a b).symm.trans h; exact encode_prefix_bytes_one.mpr ⟨b, rfl⟩
  | push _ => cases (decode_push a b).symm.trans h; exact encode_prefix_bytes_one.mpr ⟨b, rfl⟩
  | pop _ => cases (decode_pop a b).symm.trans h; exact encode_prefix_bytes_one.mpr ⟨b, rfl⟩
  | ldi _ _ => cases (decode_ldi a b).symm.trans h; exact encode_prefix_bytes_two.mpr rfl
  | add _ _ => cases (decode_add a b).symm.trans h; exact encode_prefix_bytes_two.mpr rfl
  | sub _ _ => cases (decode_sub a b).symm.trans h; exact encode_prefix_bytes_two.mpr rfl
  | mul _ _ => cases (decode_mul a b).symm.trans h; exact encode_prefix_bytes_two.mpr rfl
  | div _ _ => cases (decode_div a b).symm.trans h; exact encode_prefix_bytes_two.mpr rfl
  | cmp _ _ => cases (decode_cmp a b).symm.trans h; exact encode_prefix_bytes_two.mpr rfl

/-- The decoder in one statement. -/
theorem decode_ok_iff_encode_prefix {f : Fetched} {i : Instr} : decode f = .ok i ↔ encode i <+: f.bytes :=
  ⟨encode_prefix_of_decode, decode_of_encode_prefix⟩

/-- HLT is dispatched by its one byte. -/
theorem decode_eq_hlt_iff {f : Fetched} : decode f = .ok .hlt ↔ f.opcode = Opcode.hlt :=
  decode_ok_iff_encode_prefix.trans encode_prefix_bytes_zero

/-- A word is rejected exactly when its opcode byte is none of the ten. -/
theorem decode_error_iff {f : Fetched} :
    decode f = .error (.unknownOpcode f.opcode) ↔ f.opcode ∉ definedOpcodes := by
  constructor
  · exact fun h => (decode_reject h).2
  · intro h
    cases hd : decode f with
    | ok i => exact absurd (decode_ok_iff.mp ⟨i, hd⟩) h
    | error e =>
      obtain ⟨op⟩ := e
      rw [(decode_reject hd).1]

end Sys2Proof

namespace Sys2Proof.Machine

/-- Settles O5: the encoding and the fetched bytes both begin the same run of bytes and the encoding is not the
longer of the two, so the fetched word begins with the encoding. -/
theorem decodeOfEncodeGivesTheInstructionBack : Obligations.DecodeOfEncodeGivesTheInstructionBack := by
  intro i rest f hf
  have hlen : (encode i).length ≤ f.bytes.length := length_encode_le i
  exact decode_of_encode_prefix
    (List.prefix_of_prefix_length_le (List.prefix_append _ rest) (Fetched.bytes_prefix_of_ofBytes hf) hlen)

/-- Settles O6: the fetched bytes begin with the encoding, whose length its own opcode byte gives. -/
theorem encodeOfDecodeGivesTheFetchedBytes : Obligations.EncodeOfDecodeGivesTheFetchedBytes := by
  intro f i h
  rw [← decode_opcode h, ← length_encode]
  exact List.prefix_iff_eq_take.mp (encode_prefix_of_decode h)

/-- Settles O8: the ten bytes written out are `definedOpcodes`. -/
theorem unknownOpcodesAreExactlyTheUndefinedBytes : Obligations.UnknownOpcodesAreExactlyTheUndefinedBytes :=
  fun _ => decode_error_iff

/-- Settles O9: five words with a defined opcode byte and one without. -/
theorem specWordsDecodeToTheirInstructions : Obligations.SpecWordsDecodeToTheirInstructions :=
  ⟨decode_ldi 0 8, decode_prn 0 1, decode_div 0 1, decode_cmp 200 3, decode_pop 1 1,
    decode_error_iff (f := ⟨0xA4, 0, 1⟩).mpr (by decide)⟩

end Sys2Proof.Machine
end

section
/-! PROOFS. What an instruction can do, once for all ten: a RegisterFault of its first bad index, DivisionByZero,
or its effect followed by the advance of the pc (spec/40_execution_cycle.md R84, R87;
spec/60_exceptions.md R142, R143, R147). -/

namespace Sys2Proof

/-- The operand bytes an instruction checks as register indices, in the order of R147. -/
def Instr.checkedRegs : Instr → List Byte
  | .ldi a _ => [a]
  | .prn a => [a]
  | .hlt => []
  | .add a b => [a, b]
  | .sub a b => [a, b]
  | .mul a b => [a, b]
  | .div a b => [a, b]
  | .cmp _ _ => []
  | .push a => [a]
  | .pop a => [a]

/-- The first of the checked operand bytes that names no register. -/
def firstBad (l : List Byte) : Option Byte := l.find? fun a => decide (8 ≤ a.toNat)

theorem firstBad_one {a k : Byte} : firstBad [a] = some k ↔ 8 ≤ a.toNat ∧ k = a := by
  by_cases h : 8 ≤ a.toNat <;> simp [firstBad, h, eq_comm]

theorem firstBad_two {a b k : Byte} :
    firstBad [a, b] = some k ↔ (8 ≤ a.toNat ∧ k = a) ∨ (a.toNat < 8 ∧ 8 ≤ b.toNat ∧ k = b) := by
  by_cases ha : 8 ≤ a.toNat
  · simp [firstBad, ha, Nat.not_lt.mpr ha, eq_comm]
  · by_cases hb : 8 ≤ b.toNat <;> simp [firstBad, ha, hb, Nat.lt_of_not_le ha, eq_comm]

theorem firstBad_eq_none {l : List Byte} : firstBad l = none ↔ ∀ a ∈ l, a.toNat < 8 := by
  simp [firstBad]

theorem le_of_firstBad {l : List Byte} {k : Byte} (h : firstBad l = some k) : 8 ≤ k.toNat := by
  simpa using List.find?_some h

theorem forall_mem_pair {p : Byte → Prop} {a b : Byte} : (∀ c ∈ [a, b], p c) ↔ p a ∧ p b := by simp

/-- The indices `wellFormed` asks about are the checked ones. -/
theorem Instr.wellFormed_iff {i : Instr} : i.wellFormed = true ↔ ∀ a ∈ i.checkedRegs, a.toNat < 8 := by
  cases i <;> simp [Instr.wellFormed, Instr.checkedRegs, validReg]

/-- An instruction is ill-formed exactly when one of its checked operand bytes is bad. -/
theorem Instr.wellFormed_eq_false_iff {i : Instr} :
    i.wellFormed = false ↔ ∃ k, firstBad i.checkedRegs = some k := by
  rw [← Bool.not_eq_true, Instr.wellFormed_iff, ← firstBad_eq_none, ← ne_eq, Option.ne_none_iff_exists']

end Sys2Proof

namespace Sys2Proof.Machine

/-! ## The effects -/

/-- The one register an instruction computes from the register file, and the byte it writes there. -/
inductive RegResult (x : Vector Byte 8) : Instr → Byte → Byte → Prop
  | ldi (a v : Byte) : RegResult x (.ldi a v) a v
  | add {a b : Byte} (ha : a.toNat < 8) (hb : b.toNat < 8) :
      RegResult x (.add a b) a (narrow (x[a.toNat].toNat + x[b.toNat].toNat))
  | sub {a b : Byte} (ha : a.toNat < 8) (hb : b.toNat < 8) :
      RegResult x (.sub a b) a (narrow (x[a.toNat].toNat - x[b.toNat].toNat))
  | mul {a b : Byte} (ha : a.toNat < 8) (hb : b.toNat < 8) :
      RegResult x (.mul a b) a (narrow (x[a.toNat].toNat * x[b.toNat].toNat))
  | div {a b : Byte} (ha : a.toNat < 8) (hb : b.toNat < 8) (hne : x[b.toNat] ≠ 0) :
      RegResult x (.div a b) a (narrow (x[a.toNat].toNat / x[b.toNat].toNat : Nat))

/-- `Effect s i u`: the instruction raises no fault at `s`, and `u` is the state it leaves before the pc
advances. -/
inductive Effect (s : State) : Instr → State → Prop
  | write {i : Instr} {a v : Byte} (ha : a.toNat < 8) (hv : RegResult s.x i a v) :
      Effect s i (s.setX ⟨a.toNat, ha⟩ v)
  | prn {a : Byte} (ha : a.toNat < 8) : Effect s (.prn a) (s.emit (.out s.x[a.toNat]))
  | hlt : Effect s .hlt s.halt
  | cmp (a b : Byte) : Effect s (.cmp a b) (s.setFl (cmpFlags a.toNat b.toNat))
  | push {a : Byte} (ha : a.toNat < 8) :
      Effect s (.push a)
        ((s.setSp (pushAddr s)).setMem (Memory.write s.mem (pushAddr s).toNat s.x[a.toNat]))
  | pop {a : Byte} (ha : a.toNat < 8) :
      Effect s (.pop a)
        ((s.setSp (narrow ((s.sp.toNat : Int) + 1))).setX ⟨a.toNat, ha⟩
          (Memory.read s.mem (popAddr s).toNat))

/-! ## The arms of `exec` not stated before, where they complete -/

theorem exec_prn_of_lt {a : Byte} (h : a.toNat < 8) (s : State) :
    exec (.prn a) s = .next ((s.emit (.out s.x[a.toNat])).advance 2) :=
  (execPrn_eq a s).trans (dif_pos h)

theorem exec_prn_of_ge {a : Byte} (h : 8 ≤ a.toNat) (s : State) :
    exec (.prn a) s = .next (s.takeFault (.registerFault a)) :=
  (execPrn_eq a s).trans (dif_neg (Nat.not_lt.mpr h))

theorem exec_hlt (s : State) : exec .hlt s = .next (s.advance 1).halt := execHlt_eq s

theorem exec_cmp (a b : Byte) (s : State) :
    exec (.cmp a b) s = .next ((s.setFl (cmpFlags a.toNat b.toNat)).advance 3) := execCmp_eq a b s

theorem exec_push_of_lt {a : Byte} (h : a.toNat < 8) (s : State) :
    exec (.push a) s = .next (((s.setSp (pushAddr s)).setMem
      (Memory.write s.mem (pushAddr s).toNat s.x[a.toNat])).advance 2) :=
  (execPush_eq a s).trans (dif_pos h)

theorem exec_push_of_ge {a : Byte} (h : 8 ≤ a.toNat) (s : State) :
    exec (.push a) s = .next (s.takeFault (.registerFault a)) :=
  (execPush_eq a s).trans (dif_neg (Nat.not_lt.mpr h))

theorem exec_pop_of_lt {a : Byte} (h : a.toNat < 8) (s : State) :
    exec (.pop a) s = .next (((s.setSp (narrow ((s.sp.toNat : Int) + 1))).setX ⟨a.toNat, h⟩
      (Memory.read s.mem (popAddr s).toNat)).advance 2) :=
  (execPop_eq a s).trans (dif_pos h)

theorem exec_pop_of_ge {a : Byte} (h : 8 ≤ a.toNat) (s : State) :
    exec (.pop a) s = .next (s.takeFault (.registerFault a)) :=
  (execPop_eq a s).trans (dif_neg (Nat.not_lt.mpr h))

/-- With a divisor that is not 0 the division answers the floor of the quotient. -/
theorem aluDiv_ok {va vb : Byte} (h : vb ≠ 0) : aluDiv va vb = .ok ((va.toNat / vb.toNat : Nat) : Int) :=
  if_neg fun hzero => h (BitVec.eq_of_toNat_eq hzero)

theorem exec_div_of_lt {a b : Byte} (ha : a.toNat < 8) (hb : b.toNat < 8) {s : State} (hne : s.x[b.toNat] ≠ 0) :
    exec (.div a b) s =
      .next ((s.setX ⟨a.toNat, ha⟩ (narrow (s.x[a.toNat].toNat / s.x[b.toNat].toNat : Nat))).advance 3) := by
  rw [exec_div, complete_aluRegister_of_ok Opcode.div ha hb (aluDiv_ok hne), instrLength_div]

/-! ## The three ways an instruction ends -/

/-- The fault of ADD, SUB, MUL and DIV on their first bad index. -/
theorem complete_aluRegister_of_firstBad {op a b k : Byte} {f : Byte → Byte → Except FaultRecord Int}
    (h : firstBad [a, b] = some k) (s : State) :
    complete op s (aluRegister f a b s) = .next (s.takeFault (.registerFault k)) := by
  obtain ⟨ha, rfl⟩ | ⟨ha, hb, rfl⟩ := firstBad_two.mp h
  · exact complete_aluRegister_fault_first op f b s ha
  · exact complete_aluRegister_fault_second op f s ha hb

/-- A bad index is the fault, whatever else holds (R147). -/
theorem exec_of_firstBad {i : Instr} {k : Byte} (h : firstBad i.checkedRegs = some k) (s : State) :
    exec i s = .next (s.takeFault (.registerFault k)) := by
  cases i with
  | ldi a v => obtain ⟨ha, rfl⟩ := firstBad_one.mp h; exact exec_ldi_of_ge ha v s
  | prn a => obtain ⟨ha, rfl⟩ := firstBad_one.mp h; exact exec_prn_of_ge ha s
  | push a => obtain ⟨ha, rfl⟩ := firstBad_one.mp h; exact exec_push_of_ge ha s
  | pop a => obtain ⟨ha, rfl⟩ := firstBad_one.mp h; exact exec_pop_of_ge ha s
  | add a b => exact complete_aluRegister_of_firstBad h s
  | sub a b => exact complete_aluRegister_of_firstBad h s
  | mul a b => exact complete_aluRegister_of_firstBad h s
  | div a b => exact complete_aluRegister_of_firstBad h s
  | hlt => cases h
  | cmp a b => cases h

/-- A computed register is written and the pc advances. -/
theorem exec_of_regResult {i : Instr} {a v : Byte} {s : State} (ha : a.toNat < 8) (hv : RegResult s.x i a v) :
    exec i s = .next ((s.setX ⟨a.toNat, ha⟩ v).advance (instrLength i.opcode)) := by
  rw [← length_encode]
  cases hv with
  | ldi a v => exact exec_ldi_of_lt ha v s
  | add ha hb => exact exec_add_of_lt ha hb s
  | sub ha hb => exact exec_sub_of_lt ha hb s
  | mul ha hb => exact exec_mul_of_lt ha hb s
  | div ha hb hne => exact exec_div_of_lt ha hb hne

/-- Every effect is followed by the advance of the instruction's own length; HLT's mode change commutes with
it. -/
theorem exec_of_effect {i : Instr} {s u : State} (h : Effect s i u) :
    exec i s = .next (u.advance (instrLength i.opcode)) := by
  rw [← length_encode]
  cases h with
  | write ha hv => exact length_encode i ▸ exec_of_regResult ha hv
  | prn ha => exact exec_prn_of_lt ha s
  | hlt => exact exec_hlt s
  | cmp a b => exact exec_cmp a b s
  | push ha => exact exec_push_of_lt ha s
  | pop ha => exact exec_pop_of_lt ha s

/-- An instruction whose checked indices are all valid divides by zero or has an effect. -/
theorem dividesByZero_or_effect {i : Instr} (s : State) (h : ∀ a ∈ i.checkedRegs, a.toNat < 8) :
    DividesByZero i s ∨ ∃ u, Effect s i u := by
  cases i with
  | ldi a v => exact .inr ⟨_, .write (h a List.mem_cons_self) (.ldi a v)⟩
  | prn a => exact .inr ⟨_, .prn (h a List.mem_cons_self)⟩
  | hlt => exact .inr ⟨_, .hlt⟩
  | cmp a b => exact .inr ⟨_, .cmp a b⟩
  | push a => exact .inr ⟨_, .push (h a List.mem_cons_self)⟩
  | pop a => exact .inr ⟨_, .pop (h a List.mem_cons_self)⟩
  | add a b => obtain ⟨ha, hb⟩ := forall_mem_pair.mp h; exact .inr ⟨_, .write ha (.add ha hb)⟩
  | sub a b => obtain ⟨ha, hb⟩ := forall_mem_pair.mp h; exact .inr ⟨_, .write ha (.sub ha hb)⟩
  | mul a b => obtain ⟨ha, hb⟩ := forall_mem_pair.mp h; exact .inr ⟨_, .write ha (.mul ha hb)⟩
  | div a b =>
    obtain ⟨ha, hb⟩ := forall_mem_pair.mp h
    by_cases hzero : s.x[b.toNat] = 0
    · exact .inl ⟨a, b, ha, hb, rfl, hzero⟩
    · exact .inr ⟨_, .write ha (.div ha hb hzero)⟩

/-- `ExecFault s i f`: the instruction raises `f` at `s`. -/
inductive ExecFault (s : State) (i : Instr) : FaultRecord → Prop
  | register {k : Byte} (h : firstBad i.checkedRegs = some k) : ExecFault s i (.registerFault k)
  | division (h : DividesByZero i s) : ExecFault s i .divisionByZero

theorem exec_of_execFault {i : Instr} {s : State} {f : FaultRecord} (h : ExecFault s i f) :
    exec i s = .next (s.takeFault f) := by
  cases h with
  | register h => exact exec_of_firstBad h s
  | division h => exact exec_of_dividesByZero h

/-- At every state an instruction raises a fault or has an effect. -/
theorem execFault_or_effect (i : Instr) (s : State) : (∃ f, ExecFault s i f) ∨ ∃ u, Effect s i u := by
  cases hbad : firstBad i.checkedRegs with
  | some k => exact .inl ⟨_, .register hbad⟩
  | none =>
    obtain hzero | heffect := dividesByZero_or_effect s (firstBad_eq_none.mp hbad)
    · exact .inl ⟨_, .division hzero⟩
    · exact .inr heffect

/-- Everything an instruction that answers a next state can do. -/
theorem exec_iff {i : Instr} {s t : State} :
    exec i s = .next t ↔
      (∃ f, ExecFault s i f ∧ t = s.takeFault f) ∨
        ∃ u, Effect s i u ∧ t = u.advance (instrLength i.opcode) := by
  constructor
  · intro h
    obtain ⟨f, hf⟩ | ⟨u, hu⟩ := execFault_or_effect i s
    · cases (exec_of_execFault hf).symm.trans h
      exact .inl ⟨f, hf, rfl⟩
    · cases (exec_of_effect hu).symm.trans h
      exact .inr ⟨u, hu, rfl⟩
  · rintro (⟨f, hf, rfl⟩ | ⟨u, hu, rfl⟩)
    · exact exec_of_execFault hf
    · exact exec_of_effect hu

end Sys2Proof.Machine
end

section
/-! PROOFS. The step: what it answers in each mode, and all it can do in Running (spec/40_execution_cycle.md
R80 to R88). -/

namespace Sys2Proof

/-- The length rule as a quotient. -/
theorem instrLength_eq_div (op : Byte) : instrLength op = op.toNat / 64 + 1 := by
  simp [instrLength, Nat.shiftRight_eq_div_pow]

/-- The length rule on bits 7:6 of the opcode byte. -/
theorem instrLength_eq_extract (op : Byte) : instrLength op = (op.extractLsb' 6 2).toNat + 1 := by
  have hlt := op.isLt
  simp only [instrLength, BitVec.toNat_ushiftRight, BitVec.extractLsb'_toNat, Nat.shiftRight_eq_div_pow]
  omega

end Sys2Proof

namespace Sys2Proof.Machine

theorem fetch_ok {s : State} (h : s.pc.toNat ≤ 253) : fetch s = .ok s.fetched := (fetch_eq s).trans (if_pos h)

theorem fetch_fault {s : State} (h : 253 < s.pc.toNat) :
    fetch s = .error (.addressingFault (max 256 s.pc.toNat)) :=
  (fetch_eq s).trans (if_neg (Nat.not_le.mpr h))

theorem step_of_running {s : State} (h : s.mode = .running) : step s = engineStep s := by
  simp [step, cycle, h]

theorem step_of_ready {s : State} (h : s.mode = .ready) : step s = .refused .notLaunched := by
  simp [step, cycle, h]

theorem step_of_ended {s : State} (h : s.ended) : step s = .fault (.runEnded s.mode) := by
  obtain h | h := h <;> simp [step, cycle, h]

theorem step_of_fetch_fault {s : State} (hm : s.mode = .running) (h : 253 < s.pc.toNat) :
    step s = .next (s.takeFault (.addressingFault (max 256 s.pc.toNat))) := by
  simp only [step_of_running hm, engineStep, fetch_fault h]

theorem step_of_decode {s : State} {i : Instr} (hm : s.mode = .running) (h : s.pc.toNat ≤ 253)
    (hd : decode s.fetched = .ok i) : step s = exec i s := by
  simp only [step_of_running hm, engineStep, fetch_ok h, hd]

theorem step_of_unknown {s : State} (hm : s.mode = .running) (h : s.pc.toNat ≤ 253)
    (hop : s.fetched.opcode ∉ definedOpcodes) : step s = .next (s.reportUnknown s.fetched.opcode) := by
  simp only [step_of_running hm, engineStep, fetch_ok h, decode_error_iff.mpr hop]

/-- `StepFault s f`: a step from the Running state `s` raises `f`. -/
inductive StepFault (s : State) : FaultRecord → Prop
  | fetch (h : 253 < s.pc.toNat) : StepFault s (.addressingFault (max 256 s.pc.toNat))
  | exec {i : Instr} {f : FaultRecord} (h : s.pc.toNat ≤ 253) (hd : decode s.fetched = .ok i)
      (hf : ExecFault s i f) : StepFault s f

/-- `StepEffect s u`: a step from the Running state `s` raises no fault, and `u` is the state it leaves before the
pc advances. -/
inductive StepEffect (s : State) : State → Prop
  | exec {i : Instr} {u : State} (h : s.pc.toNat ≤ 253) (hd : decode s.fetched = .ok i) (hu : Effect s i u) :
      StepEffect s u
  | unknown (h : s.pc.toNat ≤ 253) (hop : s.fetched.opcode ∉ definedOpcodes) :
      StepEffect s (s.emit (.unknown s.fetched.opcode s.pc))

theorem step_of_stepFault {s : State} {f : FaultRecord} (hm : s.mode = .running) (h : StepFault s f) :
    step s = .next (s.takeFault f) := by
  cases h with
  | fetch h => exact step_of_fetch_fault hm h
  | exec h hd hf => rw [step_of_decode hm h hd, exec_of_execFault hf]

/-- Whatever was dispatched, the pc advances by the opcode byte's own length. -/
theorem step_of_stepEffect {s u : State} (hm : s.mode = .running) (h : StepEffect s u) :
    step s = .next (u.advance (instrLength s.fetched.opcode)) := by
  cases h with
  | exec h hd hu => rw [step_of_decode hm h hd, exec_of_effect hu, decode_opcode hd]
  | unknown h hop => exact step_of_unknown hm h hop

/-- A step from a Running state raises a fault or has an effect. -/
theorem stepFault_or_stepEffect (s : State) : (∃ f, StepFault s f) ∨ ∃ u, StepEffect s u := by
  by_cases hpc : s.pc.toNat ≤ 253
  · by_cases hop : s.fetched.opcode ∈ definedOpcodes
    · obtain ⟨i, hd⟩ := decode_ok_of_mem_definedOpcodes hop
      obtain ⟨f, hf⟩ | ⟨u, hu⟩ := execFault_or_effect i s
      · exact .inl ⟨f, .exec hpc hd hf⟩
      · exact .inr ⟨u, .exec hpc hd hu⟩
    · exact .inr ⟨_, .unknown hpc hop⟩
  · exact .inl ⟨_, .fetch (Nat.lt_of_not_le hpc)⟩

/-- Everything a step that answers a next state can do. -/
theorem step_iff {s t : State} :
    step s = .next t ↔ s.mode = .running ∧
      ((∃ f, StepFault s f ∧ t = s.takeFault f) ∨
        ∃ u, StepEffect s u ∧ t = u.advance (instrLength s.fetched.opcode)) := by
  constructor
  · intro h
    obtain ⟨hm, -⟩ := step_cases h
    refine ⟨hm, ?_⟩
    obtain ⟨f, hf⟩ | ⟨u, hu⟩ := stepFault_or_stepEffect s
    · cases (step_of_stepFault hm hf).symm.trans h
      exact .inl ⟨f, hf, rfl⟩
    · cases (step_of_stepEffect hm hu).symm.trans h
      exact .inr ⟨u, hu, rfl⟩
  · rintro ⟨hm, ⟨f, hf, rfl⟩ | ⟨u, hu, rfl⟩⟩
    · exact step_of_stepFault hm hf
    · exact step_of_stepEffect hm hu

/-- A step exists exactly in Running. -/
theorem exists_step_iff {s : State} : (∃ t, step s = .next t) ↔ s.mode = .running := by
  constructor
  · rintro ⟨t, h⟩
    exact (step_iff.mp h).1
  · intro hm
    obtain ⟨f, hf⟩ | ⟨u, hu⟩ := stepFault_or_stepEffect s
    · exact ⟨_, step_of_stepFault hm hf⟩
    · exact ⟨_, step_of_stepEffect hm hu⟩

theorem reaches_one {s t : State} (h : step s = .next t) : Reaches 1 s t :=
  (reaches_succ 0 s t).mpr ⟨t, h, (reaches_zero t t).mpr rfl⟩

/-- Settles O10: in Running a fetched word that decodes is executed. -/
theorem stepRunsTheDecodedInstruction : Obligations.StepRunsTheDecodedInstruction :=
  fun _ _ hm hpc hd => step_of_decode hm hpc hd

/-- Settles O11: the fetch faults on the first address above 255, and fault entry changes mode and fault. -/
theorem fetchAbove253RaisesAddressingFault : Obligations.FetchAbove253RaisesAddressingFault :=
  fun _ hm hpc => step_of_fetch_fault hm hpc

/-- Settles O12: a word outside the ten is reported, and the length rule is the quotient by 64 plus 1. -/
theorem unknownOpcodeIsReportedAndSkipped : Obligations.UnknownOpcodeIsReportedAndSkipped := by
  intro s hm hpc hop
  rw [← instrLength_eq_div]
  exact step_of_unknown hm hpc hop

/-- Settles O13: in Running a step raises a fault or has an effect; elsewhere the cycle answers by the mode
alone. -/
theorem aStepExistsExactlyInRunning : Obligations.AStepExistsExactlyInRunning :=
  fun _ => ⟨exists_step_iff, step_of_ready, step_of_ended⟩

end Sys2Proof.Machine
end

section
/-! PROOFS. What an effect leaves unchanged, field by field, and the frame of every instruction and of every step
(spec/10_state.md R24, R29, R31 to R34; spec/60_exceptions.md R148, R149). -/

namespace Sys2Proof.Machine

/-! ## The effect of one instruction -/

section EffectOfOneInstruction

variable {s u : State} {i : Instr}

theorem Effect.pc_eq (h : Effect s i u) : u.pc = s.pc := by cases h <;> rfl

theorem Effect.fault_eq (h : Effect s i u) : u.fault = s.fault := by cases h <;> rfl

/-- Only LDI and the four register results of the ALU compute a register from the register file. -/
theorem RegResult.writtenRegs_eq {x : Vector Byte 8} {a v : Byte} (h : RegResult x i a v) :
    writtenRegs i = [a.toNat] := by cases h <;> rfl

theorem RegResult.ne_hlt {x : Vector Byte 8} {a v : Byte} (h : RegResult x i a v) : i ≠ .hlt := by
  rintro rfl
  cases h

/-- The mode changes by HLT alone. -/
theorem Effect.mode_cases (h : Effect s i u) :
    (i = .hlt ∧ u.mode = .halted) ∨ (i ≠ .hlt ∧ u.mode = s.mode) := by
  cases h with
  | hlt => exact .inl ⟨rfl, rfl⟩
  | write ha hv => exact .inr ⟨hv.ne_hlt, rfl⟩
  | prn ha => exact .inr ⟨by simp, rfl⟩
  | cmp a b => exact .inr ⟨by simp, rfl⟩
  | push ha => exact .inr ⟨by simp, rfl⟩
  | pop ha => exact .inr ⟨by simp, rfl⟩

/-- A register outside `writtenRegs` keeps its value. -/
theorem Effect.getElem_x_eq (h : Effect s i u) {k : Nat} (hk : k < 8) (hout : k ∉ writtenRegs i) :
    u.x[k] = s.x[k] := by
  cases h with
  | @write _ a v ha hv =>
    have hne : k ≠ a.toNat := by simpa [hv.writtenRegs_eq] using hout
    exact Vector.getElem_set_ne ha hk hne.symm
  | prn ha => rfl
  | hlt => rfl
  | cmp a b => rfl
  | push ha =>
    have hne : k ≠ 7 := by simpa [writtenRegs] using hout
    exact Vector.getElem_set_ne (by decide) hk hne.symm
  | @pop a ha =>
    have hne : k ≠ 7 ∧ k ≠ a.toNat := by simpa [writtenRegs] using hout
    exact (Vector.getElem_set_ne ha hk hne.2.symm).trans (Vector.getElem_set_ne (by decide) hk hne.1.symm)

/-- FL is written by CMP alone. -/
theorem Effect.fl_cases (h : Effect s i u) : u.fl = s.fl ∨ ∃ a b, i = .cmp a b := by
  cases h with
  | cmp a b => exact .inr ⟨a, b, rfl⟩
  | write ha hv => exact .inl rfl
  | prn ha => exact .inl rfl
  | hlt => exact .inl rfl
  | push ha => exact .inl rfl
  | pop ha => exact .inl rfl

/-- Memory is written by PUSH alone, and only at the address PUSH stores to. -/
theorem Effect.read_mem_cases (h : Effect s i u) (addr : Nat) :
    Memory.read u.mem addr = Memory.read s.mem addr ∨ (∃ a, i = .push a) ∧ addr = (pushAddr s).toNat := by
  cases h with
  | @push a ha =>
    by_cases haddr : addr = (pushAddr s).toNat
    · exact .inr ⟨⟨a, rfl⟩, haddr⟩
    · exact .inl (Memory.read_write_other s.mem _ (Ne.symm haddr))
  | write ha hv => exact .inl rfl
  | prn ha => exact .inl rfl
  | hlt => exact .inl rfl
  | cmp a b => exact .inl rfl
  | pop ha => exact .inl rfl

/-- The trace grows by PRN alone. -/
theorem Effect.trace_cases (h : Effect s i u) : u.trace = s.trace ∨ ∃ a, i = .prn a := by
  cases h with
  | @prn a ha => exact .inr ⟨a, rfl⟩
  | write ha hv => exact .inl rfl
  | hlt => exact .inl rfl
  | cmp a b => exact .inl rfl
  | push ha => exact .inl rfl
  | pop ha => exact .inl rfl

end EffectOfOneInstruction

/-- Settles O35: a fault changes mode and record alone; otherwise each clause is the effect's own frame, since the
advance touches the pc alone. -/
theorem everyInstructionKeepsItsFrame : Obligations.EveryInstructionKeepsItsFrame := by
  intro i s t h
  obtain ⟨f, -, rfl⟩ | ⟨u, hu, rfl⟩ := exec_iff.mp h
  · exact ⟨fun _ _ _ => rfl, fun _ => rfl, fun _ _ => rfl, fun _ => rfl, .inr ⟨f, rfl⟩⟩
  · refine ⟨fun k hk hout => hu.getElem_x_eq hk hout, fun hcmp => ?flags, fun addr hpush => ?memory,
      fun hprn => ?trace, .inl ⟨hu.fault_eq, fun hhlt => ?mode⟩⟩
    case flags =>
      obtain hkept | ⟨a, b, rfl⟩ := hu.fl_cases
      · exact hkept
      · exact absurd rfl (hcmp a b)
    case memory =>
      obtain hkept | ⟨⟨a, rfl⟩, haddr⟩ := hu.read_mem_cases addr
      · exact hkept
      · exact absurd haddr (hpush a rfl)
    case trace =>
      obtain hkept | ⟨a, rfl⟩ := hu.trace_cases
      · exact hkept
      · exact absurd rfl (hprn a)
    case mode =>
      obtain ⟨rfl, -⟩ | ⟨-, hkept⟩ := hu.mode_cases
      · exact absurd rfl hhlt
      · exact hkept

/-! ## The effect of a step -/

section EffectOfAStep

variable {s u : State}

theorem StepEffect.pc_le (h : StepEffect s u) : s.pc.toNat ≤ 253 := by
  cases h with
  | exec h hd hu => exact h
  | unknown h hop => exact h

theorem StepEffect.pc_eq (h : StepEffect s u) : u.pc = s.pc := by
  cases h with
  | exec h hd hu => exact hu.pc_eq
  | unknown h hop => rfl

theorem StepEffect.fault_eq (h : StepEffect s u) : u.fault = s.fault := by
  cases h with
  | exec h hd hu => exact hu.fault_eq
  | unknown h hop => rfl

/-- The mode changes exactly on the HLT byte. -/
theorem StepEffect.mode_cases (h : StepEffect s u) :
    (s.fetched.opcode = Opcode.hlt ∧ u.mode = .halted) ∨ (s.fetched.opcode ≠ Opcode.hlt ∧ u.mode = s.mode) := by
  cases h with
  | exec h hd hu =>
    obtain ⟨rfl, hmode⟩ | ⟨hne, hmode⟩ := hu.mode_cases
    · exact .inl ⟨decode_eq_hlt_iff.mp hd, hmode⟩
    · refine .inr ⟨fun hop => hne ?_, hmode⟩
      cases (decode_eq_hlt_iff.mpr hop).symm.trans hd
      rfl
  | unknown h hop => exact .inr ⟨fun hhlt => hop (by simp [hhlt, definedOpcodes]), rfl⟩

/-- At every pc a fetch succeeds at, the advance is exact. -/
theorem toNat_pc_add_instrLength {pc : PcWord} (h : pc.toNat ≤ 253) (op : Byte) :
    (pc + BitVec.ofNat 9 (instrLength op)).toNat = pc.toNat + instrLength op := by
  obtain ⟨-, hle⟩ := instrLength_le op
  rw [BitVec.toNat_add, BitVec.toNat_ofNat]
  omega

theorem StepEffect.toNat_advance_pc (h : StepEffect s u) (op : Byte) :
    (u.advance (instrLength op)).pc.toNat = s.pc.toNat + instrLength op := by
  rw [State.advance_pc, h.pc_eq, toNat_pc_add_instrLength h.pc_le]

/-- From Running an effect never ends in Faulted. -/
theorem StepEffect.mode_ne_faulted (h : StepEffect s u) (hm : s.mode = .running) : u.mode ≠ .faulted := by
  obtain ⟨-, hmode⟩ | ⟨-, hmode⟩ := h.mode_cases
  · simp [hmode]
  · simp [hmode, hm]

/-- No fault is raised by the HLT byte once the fetch has succeeded. -/
theorem StepFault.opcode_ne_hlt {f : FaultRecord} (h : StepFault s f) (hpc : s.pc.toNat ≤ 253) :
    s.fetched.opcode ≠ Opcode.hlt := by
  intro hop
  cases h with
  | fetch h => exact absurd hpc (Nat.not_le.mpr h)
  | exec _ hd hf =>
    cases (decode_eq_hlt_iff.mpr hop).symm.trans hd
    cases hf with
    | register hbad => cases hbad
    | division hzero => obtain ⟨a, b, _, _, h, -⟩ := hzero; simp at h

end EffectOfAStep

/-- Settles O14: a fault leaves the pc; after an effect the advance is exact. -/
theorem pcAdvancesByTheOpcodesOwnLength : Obligations.PcAdvancesByTheOpcodesOwnLength := by
  intro s t h
  obtain ⟨hm, ⟨f, -, rfl⟩ | ⟨u, hu, rfl⟩⟩ := step_iff.mp h
  · exact .inl ⟨rfl, rfl⟩
  · refine .inr ⟨hu.mode_ne_faulted hm, ?_⟩
    rw [hu.toNat_advance_pc, instrLength_eq_extract]

/-- Settles O15: a fault ends in Faulted, and cannot come from a fetched HLT byte; an effect changes the mode on
the HLT byte alone. -/
theorem modeChangesOnlyByHaltAndFault : Obligations.ModeChangesOnlyByHaltAndFault := by
  intro s t h
  obtain ⟨hm, ⟨f, hf, rfl⟩ | ⟨u, hu, rfl⟩⟩ := step_iff.mp h
  · exact ⟨by simp, ⟨by simp, fun ⟨hpc, hop⟩ => absurd hop (hf.opcode_ne_hlt hpc)⟩, by simp, by simp⟩
  · have hgrows : s.pc.toNat < (u.advance (instrLength s.fetched.opcode)).pc.toNat := by
      have hpos := instrLength_le s.fetched.opcode
      rw [hu.toNat_advance_pc]
      omega
    obtain ⟨hop, hmode⟩ | ⟨hop, hmode⟩ := hu.mode_cases
    · exact ⟨by simp [hmode], ⟨fun _ => ⟨hu.pc_le, hop⟩, fun _ => hmode⟩, by simp [hmode], fun _ => hgrows⟩
    · rw [hm] at hmode
      exact ⟨by simp [hmode], ⟨by simp [hmode], fun ⟨_, hhlt⟩ => absurd hhlt hop⟩, by simp [hmode], fun _ => hgrows⟩

/-- Settles O34: a fault keeps Memory and a report of an unknown opcode too, so the change is the effect of the
decoded PUSH. -/
theorem onlyPushWritesMemory : Obligations.OnlyPushWritesMemory := by
  intro s t addr h hne
  obtain ⟨-, ⟨f, -, rfl⟩ | ⟨u, hu, rfl⟩⟩ := step_iff.mp h
  · exact absurd rfl hne
  · cases hu with
    | unknown hpc hop => exact absurd rfl hne
    | exec hpc hd hu =>
      obtain hkept | ⟨⟨a, rfl⟩, rfl⟩ := hu.read_mem_cases addr
      · exact absurd hkept hne
      · exact ⟨hpc, ⟨a, hd⟩, pushAddr_toNat s⟩

/-- Settles O40: the Faulted state is the one fault entry makes; an effect keeps the record and does not end in
Faulted. -/
theorem faultsArePrecise : Obligations.FaultsArePrecise := by
  intro s t h
  obtain ⟨hm, ⟨f, -, rfl⟩ | ⟨u, hu, rfl⟩⟩ := step_iff.mp h
  · exact ⟨fun _ => ⟨f, rfl⟩, fun hne => absurd rfl hne⟩
  · exact ⟨fun hfaulted => absurd hfaulted (hu.mode_ne_faulted hm), fun _ => hu.fault_eq⟩

end Sys2Proof.Machine
end

section
/-! PROOFS. The invariant: every operation on the state keeps it, so every effect and every step does
(spec/10_state.md R27, R28, R32 to R34). -/

namespace Sys2Proof.Machine

/-! ## The operations on the state -/

section Operations

variable {s : State} (hs : MachineInv s)
include hs

theorem MachineInv.setX (k : Fin 8) (v : Byte) : MachineInv (s.setX k v) :=
  ⟨hs.memCanonical, hs.pcInRange, hs.flLegal, hs.faultIffFaulted, hs.faultLegal, hs.traceLegal⟩

theorem MachineInv.setMem {m : Memory} (hm : Memory.wf m = true) : MachineInv (s.setMem m) :=
  ⟨hm, hs.pcInRange, hs.flLegal, hs.faultIffFaulted, hs.faultLegal, hs.traceLegal⟩

/-- CMP leaves one of the three flags. -/
theorem MachineInv.setFl_cmpFlags (a b : Nat) : MachineInv (s.setFl (cmpFlags a b)) := by
  refine ⟨hs.memCanonical, hs.pcInRange, ?_, hs.faultIffFaulted, hs.faultLegal, hs.traceLegal⟩
  rw [State.setFl_fl]
  obtain h | h | h := Nat.lt_trichotomy a b
  · exact .inr (.inr (.inr (cmpFlags_of_lt h)))
  · exact .inr (.inl (cmpFlags_of_eq h))
  · exact .inr (.inr (.inl (cmpFlags_of_gt h)))

theorem MachineInv.emit {e : Event} (he : e.legal) : MachineInv (s.emit e) := by
  refine ⟨hs.memCanonical, hs.pcInRange, hs.flLegal, hs.faultIffFaulted, hs.faultLegal, fun d hd => ?_⟩
  obtain hd | rfl : d ∈ s.trace ∨ d = e := by simpa using hd
  · exact hs.traceLegal d hd
  · exact he

theorem MachineInv.takeFault {f : FaultRecord} (hf : f.legal) : MachineInv (s.takeFault f) := by
  refine ⟨hs.memCanonical, hs.pcInRange, hs.flLegal, by simp, fun g hg => ?_, hs.traceLegal⟩
  cases hg
  exact hf

/-- Outside Faulted there is no fault record. -/
theorem MachineInv.fault_eq_none (hm : s.mode ≠ .faulted) : s.fault = none := by
  by_contra hne
  exact hm (hs.faultIffFaulted.mp hne)

/-- A change to another mode than Faulted is one from a state without a fault record. -/
theorem MachineInv.setMode {m : Mode} (hs' : s.mode ≠ .faulted) (hm : m ≠ .faulted) :
    MachineInv { s with mode := m } :=
  ⟨hs.memCanonical, hs.pcInRange, hs.flLegal, by simp [hs.fault_eq_none hs', hm], hs.faultLegal, hs.traceLegal⟩

/-- After a fetch that succeeded the advance stays at most 257. -/
theorem MachineInv.advance_instrLength (hpc : s.pc.toNat ≤ 253) (op : Byte) :
    MachineInv (s.advance (instrLength op)) := by
  refine ⟨hs.memCanonical, ?_, hs.flLegal, hs.faultIffFaulted, hs.faultLegal, hs.traceLegal⟩
  obtain ⟨-, hle⟩ := instrLength_le op
  rw [State.advance_pc, toNat_pc_add_instrLength hpc]
  omega

end Operations

/-! ## Effects and faults -/

theorem MachineInv.effect {s u : State} {i : Instr} (hs : MachineInv s) (hm : s.mode = .running)
    (h : Effect s i u) : MachineInv u := by
  cases h with
  | write ha hv => exact hs.setX _ _
  | prn ha => exact hs.emit trivial
  | hlt => exact hs.setMode (by simp [hm]) (by simp)
  | cmp a b => exact hs.setFl_cmpFlags _ _
  | push ha => exact (hs.setX 7 _).setMem (Memory.wf_write hs.memCanonical (BitVec.isLt _) _)
  | pop ha => exact (hs.setX 7 _).setX _ _

theorem MachineInv.stepEffect {s u : State} (hs : MachineInv s) (hm : s.mode = .running) (h : StepEffect s u) :
    MachineInv u := by
  cases h with
  | exec hpc hd hu => exact hs.effect hm hu
  | unknown hpc hop => exact hs.emit ⟨hop, hpc⟩

theorem StepFault.legal {s : State} {f : FaultRecord} (h : StepFault s f) (hpc : s.pc.toNat ≤ 257) : f.legal := by
  cases h with
  | fetch h =>
    show max 256 s.pc.toNat = 256 ∨ max 256 s.pc.toNat = 257
    omega
  | exec _ hd hf =>
    cases hf with
    | register hbad => exact le_of_firstBad hbad
    | division hzero => trivial

/-- Settles O3: a fault raised in the pc's range has a legal datum, an effect keeps the invariant, and the advance
after it starts at pc 253 at most. -/
theorem everyStepKeepsTheInvariant : Obligations.EveryStepKeepsTheInvariant := by
  intro s t hs h
  obtain ⟨hm, ⟨f, hf, rfl⟩ | ⟨u, hu, rfl⟩⟩ := step_iff.mp h
  · exact hs.takeFault (hf.legal hs.pcInRange)
  · exact (hs.stepEffect hm hu).advance_instrLength (hu.pc_eq ▸ hu.pc_le) _

end Sys2Proof.Machine
end

section
/-! PROOFS. What a step does not read: the flags and the trace (spec/10_state.md R29, R34). -/

namespace Sys2Proof.Machine

/-! ## The flags -/

/-- `w` is `u` but for the flags byte, which is carried along from `v` where `u` kept it, or else the same. -/
def CarriesFlags (v : Byte) (s u w : State) : Prop :=
  w = u.setFl w.fl ∧ ((w.fl = v ∧ u.fl = s.fl) ∨ w.fl = u.fl)

theorem ExecFault.setFl {s : State} {i : Instr} {f : FaultRecord} (h : ExecFault s i f) (v : Byte) :
    ExecFault (s.setFl v) i f := by
  cases h with
  | register h => exact .register h
  | division h => exact .division h

/-- No effect reads FL: from other flags the same instruction has the same effect. -/
theorem Effect.setFl {s u : State} {i : Instr} (h : Effect s i u) (v : Byte) :
    ∃ w, Effect (s.setFl v) i w ∧ CarriesFlags v s u w := by
  cases h with
  | write ha hv => exact ⟨_, .write ha hv, rfl, .inl ⟨rfl, rfl⟩⟩
  | prn ha => exact ⟨_, .prn ha, rfl, .inl ⟨rfl, rfl⟩⟩
  | hlt => exact ⟨_, .hlt, rfl, .inl ⟨rfl, rfl⟩⟩
  | cmp a b => exact ⟨_, .cmp a b, rfl, .inr rfl⟩
  | push ha => exact ⟨_, .push ha, rfl, .inl ⟨rfl, rfl⟩⟩
  | pop ha => exact ⟨_, .pop ha, rfl, .inl ⟨rfl, rfl⟩⟩

theorem StepFault.setFl {s : State} {f : FaultRecord} (h : StepFault s f) (v : Byte) : StepFault (s.setFl v) f := by
  cases h with
  | fetch h => exact .fetch h
  | exec h hd hf => exact .exec h hd (hf.setFl v)

theorem StepEffect.setFl {s u : State} (h : StepEffect s u) (v : Byte) :
    ∃ w, StepEffect (s.setFl v) w ∧ CarriesFlags v s u w := by
  cases h with
  | exec h hd hu =>
    obtain ⟨w, hw, hcarry⟩ := hu.setFl v
    exact ⟨w, .exec h hd hw, hcarry⟩
  | unknown h hop => exact ⟨_, .unknown h hop, rfl, .inl ⟨rfl, rfl⟩⟩

/-- Settles O36: only the effect of a decoded CMP changes FL; and the fault or the effect of a step is the same from
other flags. -/
theorem flagsAreWrittenByCmpAndReadByNothing : Obligations.FlagsAreWrittenByCmpAndReadByNothing := by
  refine ⟨fun s t h hne => ?written, fun s t v h => ?unread⟩
  case written =>
    obtain ⟨-, ⟨f, -, rfl⟩ | ⟨u, hu, rfl⟩⟩ := step_iff.mp h
    · exact absurd rfl hne
    · cases hu with
      | unknown hpc hop => exact absurd rfl hne
      | exec hpc hd hu =>
        obtain hkept | ⟨a, b, rfl⟩ := hu.fl_cases
        · exact absurd hkept hne
        · exact ⟨hpc, a, b, hd⟩
  case unread =>
    obtain ⟨hm, ⟨f, hf, rfl⟩ | ⟨u, hu, rfl⟩⟩ := step_iff.mp h
    · exact ⟨_, step_of_stepFault hm (hf.setFl v), rfl, .inl ⟨rfl, rfl⟩⟩
    · obtain ⟨w, hw, hcarry, hfl⟩ := hu.setFl v
      exact ⟨_, step_of_stepEffect hm hw, congrArg (State.advance · _) hcarry, hfl⟩

/-! ## The trace -/

/-- The state with another trace. -/
def State.setTrace (s : State) (p : List Event) : State := { s with trace := p }

/-- `R` leads from `s` to `u` by appending at most one event, and from any other trace by appending the same. -/
def AppendsUnread (R : State → State → Prop) (s u : State) : Prop :=
  ∃ new : List Event, new.length ≤ 1 ∧ u.trace = s.trace ++ new ∧ ∀ p, R (s.setTrace p) (u.setTrace (p ++ new))

theorem appendsUnread_nil {R : State → State → Prop} {s u : State} (hu : u.trace = s.trace)
    (h : ∀ p, R (s.setTrace p) (u.setTrace p)) : AppendsUnread R s u :=
  ⟨[], Nat.zero_le 1, by rw [hu, List.append_nil], fun p => by rw [List.append_nil]; exact h p⟩

theorem appendsUnread_singleton {R : State → State → Prop} {s u : State} {e : Event} (hu : u.trace = s.trace ++ [e])
    (h : ∀ p, R (s.setTrace p) (u.setTrace (p ++ [e]))) : AppendsUnread R s u :=
  ⟨[e], Nat.le_refl 1, hu, h⟩

theorem AppendsUnread.imp {R Q : State → State → Prop} {s u t : State} (h : AppendsUnread R s u)
    (ht : t.trace = u.trace) (himp : ∀ p q, R (s.setTrace p) (u.setTrace q) → Q (s.setTrace p) (t.setTrace q)) :
    AppendsUnread Q s t := by
  obtain ⟨new, hlen, hu, hR⟩ := h
  exact ⟨new, hlen, ht.trans hu, fun p => himp p _ (hR p)⟩

theorem ExecFault.setTrace {s : State} {i : Instr} {f : FaultRecord} (h : ExecFault s i f) (p : List Event) :
    ExecFault (s.setTrace p) i f := by
  cases h with
  | register h => exact .register h
  | division h => exact .division h

/-- PRN appends its one event; no other effect touches the trace. -/
theorem Effect.appendsUnread {s u : State} {i : Instr} (h : Effect s i u) :
    AppendsUnread (fun s u => Effect s i u) s u := by
  cases h with
  | prn ha => exact appendsUnread_singleton rfl fun _ => .prn ha
  | write ha hv => exact appendsUnread_nil rfl fun _ => .write ha hv
  | hlt => exact appendsUnread_nil rfl fun _ => .hlt
  | cmp a b => exact appendsUnread_nil rfl fun _ => .cmp a b
  | push ha => exact appendsUnread_nil rfl fun _ => .push ha
  | pop ha => exact appendsUnread_nil rfl fun _ => .pop ha

theorem StepFault.setTrace {s : State} {f : FaultRecord} (h : StepFault s f) (p : List Event) :
    StepFault (s.setTrace p) f := by
  cases h with
  | fetch h => exact .fetch h
  | exec h hd hf => exact .exec h hd (hf.setTrace p)

theorem StepEffect.appendsUnread {s u : State} (h : StepEffect s u) : AppendsUnread StepEffect s u := by
  cases h with
  | exec h hd hu => exact hu.appendsUnread.imp rfl fun _ _ hw => .exec h hd hw
  | unknown h hop => exact appendsUnread_singleton rfl fun _ => .unknown h hop

/-- Settles O37: a fault appends nothing, an effect at most one event, and both are the same from any trace. -/
theorem traceIsAppendOnlyAndNeverRead : Obligations.TraceIsAppendOnlyAndNeverRead := by
  intro s t h
  obtain ⟨hm, ⟨f, hf, rfl⟩ | ⟨u, hu, rfl⟩⟩ := step_iff.mp h
  · exact appendsUnread_nil (R := fun s t => step s = .next t) rfl
      fun p => step_of_stepFault hm (hf.setTrace p)
  · exact hu.appendsUnread.imp (Q := fun s t => step s = .next t) rfl
      fun p _ hw => step_of_stepEffect (s := s.setTrace p) hm hw

end Sys2Proof.Machine
end

section
/-! PROOFS. Which fault a step records (spec/60_exceptions.md R140, R147). -/

namespace Sys2Proof.Machine

/-- From a state with no fault recorded, the record after a step is the fault raised by it. -/
theorem fault_eq_some_iff {s t : State} {f : FaultRecord} (hs : s.fault = none) (h : step s = .next t) :
    t.fault = some f ↔ StepFault s f := by
  obtain ⟨hm, hcases⟩ := step_iff.mp h
  constructor
  · intro ht
    obtain ⟨g, hg, rfl⟩ | ⟨u, hu, rfl⟩ := hcases
    · cases ht
      exact hg
    · cases (hu.fault_eq.trans hs).symm.trans ht
  · intro hf
    cases (step_of_stepFault hm hf).symm.trans h
    rfl

theorem exists_stepFault_addressingFault {s : State} :
    (∃ addr, StepFault s (.addressingFault addr)) ↔ 253 < s.pc.toNat := by
  constructor
  · rintro ⟨addr, h⟩
    cases h with
    | fetch h => exact h
    | exec _ _ hf => cases hf
  · exact fun h => ⟨_, .fetch h⟩

theorem exists_stepFault_registerFault {s : State} :
    (∃ k, StepFault s (.registerFault k)) ↔
      s.pc.toNat ≤ 253 ∧ ∃ i, decode s.fetched = .ok i ∧ i.wellFormed = false := by
  constructor
  · rintro ⟨k, h⟩
    cases h with
    | @exec i _ hpc hd hf =>
      cases hf with
      | register hbad => exact ⟨hpc, i, hd, Instr.wellFormed_eq_false_iff.mpr ⟨k, hbad⟩⟩
  · rintro ⟨hpc, i, hd, hwf⟩
    obtain ⟨k, hbad⟩ := Instr.wellFormed_eq_false_iff.mp hwf
    exact ⟨k, .exec hpc hd (.register hbad)⟩

theorem stepFault_divisionByZero_iff {s : State} :
    StepFault s .divisionByZero ↔ s.pc.toNat ≤ 253 ∧ ∃ (a b : Byte) (_ : a.toNat < 8) (hb : b.toNat < 8),
      decode s.fetched = .ok (.div a b) ∧ s.x[b.toNat] = 0 := by
  constructor
  · intro h
    cases h with
    | exec hpc hd hf =>
      cases hf with
      | division hzero =>
        obtain ⟨a, b, ha, hb, rfl, hzero⟩ := hzero
        exact ⟨hpc, a, b, ha, hb, hd, hzero⟩
  · rintro ⟨hpc, a, b, ha, hb, hd, hzero⟩
    exact .exec hpc hd (.division ⟨a, b, ha, hb, rfl, hzero⟩)

/-- Settles O39: the record is the fault raised, and each constructor of `StepFault` is one cause. -/
theorem eachFaultHasExactlyItsCause : Obligations.EachFaultHasExactlyItsCause := by
  intro s t hs h
  simp only [fault_eq_some_iff hs h]
  exact ⟨exists_stepFault_addressingFault, exists_stepFault_registerFault, stepFault_divisionByZero_iff⟩

end Sys2Proof.Machine
end

section
/-! PROOFS. PRN, HLT, DIV, CMP, and what the ALU's results have in common (spec/41_ldi_prn_hlt.md R101, R102;
spec/42_alu.md R110, R114 to R117). -/

namespace Sys2Proof.Machine

/-- Settles O17: the two answers of PRN's arm are the states the statement writes out. -/
theorem prnEmitsTheRegister : Obligations.PrnEmitsTheRegister := fun s a b =>
  ⟨decode_prn a b, fun ha => exec_prn_of_lt ha s, fun ha => exec_prn_of_ge ha s⟩

/-- Settles O18: HLT's arm is the advance by 1 followed by the mode change. -/
theorem hltAdvancesThenHalts : Obligations.HltAdvancesThenHalts := fun s a b => ⟨decode_hlt a b, exec_hlt s⟩

/-- A quotient of two bytes fits in a byte. -/
theorem toNat_narrow_div (va vb : Byte) : (narrow (va.toNat / vb.toNat : Nat)).toNat = va.toNat / vb.toNat := by
  rw [toNat_narrow_natCast]
  exact Nat.mod_eq_of_lt ((Nat.div_le_self _ _).trans_lt va.isLt)

/-- Settles O22: the quotient fits in a byte, so narrowing keeps it; the zero divisor and the two bad indices are
the faults of DIV. -/
theorem divWritesTheFloorOrFaults : Obligations.DivWritesTheFloorOrFaults := by
  intro s a b
  refine ⟨decode_div a b, fun ha hb hne => ⟨_, toNat_narrow_div _ _, exec_div_of_lt ha hb fun hzero => ?_⟩,
    fun ha hb hzero => exec_of_dividesByZero ⟨a, b, ha, hb, rfl, BitVec.eq_of_toNat_eq hzero⟩,
    complete_aluRegister_fault_first Opcode.div aluDiv b s,
    complete_aluRegister_fault_second Opcode.div aluDiv s⟩
  exact hne (congrArg BitVec.toNat hzero)

/-! ## CMP's flags, bit by bit -/

theorem cmpFlags_toNat_lt (a b : Nat) : (cmpFlags a b).toNat < 8 := by
  obtain h | h | h := Nat.lt_trichotomy a b
  · rw [cmpFlags_of_lt h]; decide
  · rw [cmpFlags_of_eq h]; decide
  · rw [cmpFlags_of_gt h]; decide

/-- Exactly one of the three bits is set, by the comparison of the two numbers. -/
theorem cmpFlags_bits (a b : Nat) :
    ((cmpFlags a b).getLsbD 0 = true ↔ a = b) ∧ ((cmpFlags a b).getLsbD 1 = true ↔ b < a) ∧
      ((cmpFlags a b).getLsbD 2 = true ↔ a < b) := by
  obtain h | h | h := Nat.lt_trichotomy a b
  · simp [cmpFlags_of_lt h, flagL, h, h.ne, h.le]
  · subst h
    simp [cmpFlags_of_eq rfl, flagE]
  · simp [cmpFlags_of_gt h, flagG, h, h.ne', h.le]

/-- Settles O23: CMP's arm has one answer, and the bits of the byte it writes are read off `cmpFlags_bits`. -/
theorem cmpComparesTheOperandBytes : Obligations.CmpComparesTheOperandBytes := fun s a b =>
  ⟨decode_cmp a b, _, exec_cmp a b s, rfl, cmpFlags_toNat_lt _ _, cmpFlags_bits _ _⟩

/-! ## The ALU and the register file -/

/-- ADD, SUB, MUL and DIV read the register file alone: they raise a fault that it determines, or write one result
that it determines. -/
theorem alu_cases {a b : Byte} {i : Instr} (x : Vector Byte 8)
    (hi : i ∈ [Instr.add a b, .sub a b, .mul a b, .div a b]) :
    (∃ f, (f = .registerFault a ∨ f = .registerFault b ∨ (f = .divisionByZero ∧ i = .div a b)) ∧
        ∀ s : State, s.x = x → ExecFault s i f) ∨
      ∃ v, a.toNat < 8 ∧ RegResult x i a v := by
  have hregs : i.checkedRegs = [a, b] := by
    simp only [List.mem_cons, List.not_mem_nil, or_false] at hi
    obtain rfl | rfl | rfl | rfl := hi <;> rfl
  cases hbad : firstBad i.checkedRegs with
  | some k =>
    refine .inl ⟨.registerFault k, ?_, fun s _ => .register hbad⟩
    obtain ⟨-, rfl⟩ | ⟨-, -, rfl⟩ := firstBad_two.mp (hregs ▸ hbad)
    · exact .inl rfl
    · exact .inr (.inl rfl)
  | none =>
    obtain ⟨ha, hb⟩ := forall_mem_pair.mp (firstBad_eq_none.mp (hregs ▸ hbad))
    simp only [List.mem_cons, List.not_mem_nil, or_false] at hi
    obtain rfl | rfl | rfl | rfl := hi
    · exact .inr ⟨_, ha, .add ha hb⟩
    · exact .inr ⟨_, ha, .sub ha hb⟩
    · exact .inr ⟨_, ha, .mul ha hb⟩
    · by_cases hzero : x[b.toNat] = 0
      · exact .inl ⟨_, .inr (.inr ⟨rfl, rfl⟩), fun s hs => .division ⟨a, b, ha, hb, rfl, hs ▸ hzero⟩⟩
      · exact .inr ⟨_, ha, .div ha hb hzero⟩

/-- The five ALU instructions have length 3. -/
theorem instrLength_opcode_alu {a b : Byte} {i : Instr} (hi : i ∈ [Instr.add a b, .sub a b, .mul a b, .div a b]) :
    instrLength i.opcode = 3 := by
  simp only [List.mem_cons, List.not_mem_nil, or_false] at hi
  obtain rfl | rfl | rfl | rfl := hi <;> rw [← length_encode] <;> rfl

/-- The five ALU opcode bytes select their instructions. -/
theorem decode_alu (a b : Byte) :
    ∀ p ∈ [((0xA0 : Byte), Instr.add a b), (0xA1, .sub a b), (0xA2, .mul a b), (0xA3, .div a b), (0xA7, .cmp a b)],
      decode ⟨p.1, a, b⟩ = .ok p.2 := by
  simp only [List.forall_mem_cons]
  exact ⟨decode_add a b, decode_sub a b, decode_mul a b, decode_div a b, decode_cmp a b, by simp⟩

/-- Settles O24: both states raise the fault, or write the result, that the common register file determines; CMP's
flags are those of the operand bytes. -/
theorem aluDependsOnTheRegisterFileAlone : Obligations.AluDependsOnTheRegisterFileAlone := by
  intro s u a b hx
  refine ⟨decode_alu a b, fun i hi => ?_, _, exec_cmp a b s, exec_cmp a b u⟩
  obtain ⟨f, hf, hraise⟩ | ⟨v, ha, hv⟩ := alu_cases s.x hi
  · exact .inr ⟨f, hf, exec_of_execFault (hraise s rfl), exec_of_execFault (hraise u hx.symm)⟩
  · have hlen := instrLength_opcode_alu hi
    have hs := exec_of_regResult ha hv
    have hu := exec_of_regResult (s := u) ha (hx ▸ hv)
    rw [hlen] at hs hu
    refine .inl ⟨s.x.set a.toNat v, hs, ?_, fun k hk hne => Vector.getElem_set_ne ha hk hne.symm⟩
    rw [hx]
    exact hu

/-! ## The same register twice -/

theorem narrow_sub_self (v : Byte) : narrow ((v.toNat : Int) - v.toNat) = 0 := by
  rw [Int.sub_self]
  rfl

theorem narrow_div_self {v : Byte} (h : v ≠ 0) : narrow (v.toNat / v.toNat : Nat) = 1 := by
  have hpos : 0 < v.toNat := Nat.pos_of_ne_zero fun hzero => h (BitVec.eq_of_toNat_eq hzero)
  rw [Nat.div_self hpos]
  rfl

/-- Settles O25: each result is that of the two equal values read before the write. -/
theorem sameRegisterTwiceIsReadBeforeTheWrite : Obligations.SameRegisterTwiceIsReadBeforeTheWrite := by
  intro s n hn
  refine ⟨⟨_, ?sum, exec_add_of_lt hn hn s⟩, ?difference, ⟨_, ?product, exec_mul_of_lt hn hn s⟩,
    fun hne => ?quotient, fun hzero => exec_of_dividesByZero ⟨n, n, hn, hn, rfl, hzero⟩, ?comparison⟩
  case sum => rw [← Int.natCast_add, toNat_narrow_natCast, Nat.two_mul]
  case product => rw [← Int.natCast_mul, toNat_narrow_natCast, Nat.pow_two]
  case difference =>
    rw [exec_sub_of_lt hn hn, narrow_sub_self]
    rfl
  case quotient =>
    rw [exec_div_of_lt hn hn hne, narrow_div_self hne]
    rfl
  case comparison =>
    rw [exec_cmp, cmpFlags_of_eq rfl]
    rfl

/-! ## Two's complement -/

/-- Narrowing does not tell a byte's unsigned value from its signed one. -/
theorem narrow_toInt (v : Byte) : narrow v.toInt = v := BitVec.ofInt_toInt

theorem narrow_add (m n : Int) : narrow (m + n) = narrow m + narrow n := BitVec.ofInt_add m n

theorem narrow_sub (m n : Int) : narrow (m - n) = narrow m - narrow n :=
  BitVec.eq_of_toInt_eq (by simp [narrow])

theorem narrow_mul (m n : Int) : narrow (m * n) = narrow m * narrow n := BitVec.ofInt_mul m n

theorem narrow_toNat_add (va vb : Byte) : narrow (va.toNat + vb.toNat) = narrow (va.toInt + vb.toInt) := by
  simp only [narrow_add, narrow_toNat, narrow_toInt]

theorem narrow_toNat_sub (va vb : Byte) : narrow (va.toNat - vb.toNat) = narrow (va.toInt - vb.toInt) := by
  simp only [narrow_sub, narrow_toNat, narrow_toInt]

theorem narrow_toNat_mul (va vb : Byte) : narrow (va.toNat * vb.toNat) = narrow (va.toInt * vb.toInt) := by
  simp only [narrow_mul, narrow_toNat, narrow_toInt]

/-- Settles O26: narrowing is a homomorphism that sends a byte's unsigned and signed value to the byte itself. -/
theorem addSubMulAgreeWithSignedArithmetic : Obligations.AddSubMulAgreeWithSignedArithmetic := by
  intro s a b ha hb
  refine ⟨?sum, ?difference, ?product⟩
  case sum =>
    rw [exec_add_of_lt ha hb, narrow_toNat_add]
    rfl
  case difference =>
    rw [exec_sub_of_lt ha hb, narrow_toNat_sub]
    rfl
  case product =>
    rw [exec_mul_of_lt ha hb, narrow_toNat_mul]
    rfl

end Sys2Proof.Machine
end

section
/-! PROOFS. PUSH and POP, one after the other and into the code (spec/43_stack.md R132, R133, R136;
spec/20_memory.md R53). -/

namespace Sys2Proof.Machine

/-- Settles O30: PUSH stores the register's old value at the new stack pointer, and a store changes one cell. -/
theorem pushStoresTheRegisterAtTheNewStackPointer : Obligations.PushStoresTheRegisterAtTheNewStackPointer := by
  intro s a b hwf
  refine ⟨decode_push a b, fun ha => ⟨_, exec_push_of_lt ha s, pushAddr_toNat s, rfl, ?stored, ?others⟩,
    fun ha => exec_push_of_ge ha s⟩
  case stored => exact Memory.read_write_same hwf _ _
  case others => exact fun addr hne => Memory.read_write_other s.mem _ hne.symm

/-- Settles O31: POP's two register writes are those of its arm, in their order. -/
theorem popLoadsTheByteAtTheStackPointer : Obligations.PopLoadsTheByteAtTheStackPointer := fun s a b =>
  ⟨decode_pop a b, fun ha => ⟨_, toNat_narrow_sp_succ s, exec_pop_of_lt ha s⟩, fun ha => exec_pop_of_ge ha s⟩

/-! ## PUSH and POP as steps -/

/-- PUSH's address in terms of R7. -/
theorem x7_pred_eq_pushAddr (s : State) : (s.x[7].toNat + 255) % 256 = (pushAddr s).toNat :=
  (pushAddr_toNat s).symm

/-- The state PUSH leaves, with the value pushed. -/
def pushed (s : State) (v : Byte) : State :=
  ((s.setSp (pushAddr s)).setMem (Memory.write s.mem (pushAddr s).toNat v)).advance 2

/-- The state POP of register `k` leaves. -/
def popped (s : State) (k : Fin 8) : State :=
  ((s.setSp (narrow ((s.sp.toNat : Int) + 1))).setX k (Memory.read s.mem (popAddr s).toNat)).advance 2

theorem fetched_eq {s : State} {op a : Byte} (hop : Memory.read s.mem s.pc.toNat = op)
    (ha : Memory.read s.mem (s.pc.toNat + 1) = a) :
    s.fetched = ⟨op, a, Memory.read s.mem (s.pc.toNat + 2)⟩ := by
  rw [State.fetched, hop, ha]

theorem step_push {s : State} {r : Byte} (hr : r.toNat < 8) (hm : s.mode = .running) (hpc : s.pc.toNat ≤ 253)
    (hop : Memory.read s.mem s.pc.toNat = Opcode.push) (ha : Memory.read s.mem (s.pc.toNat + 1) = r) :
    step s = .next (pushed s s.x[r.toNat]) := by
  have hd : decode s.fetched = .ok (.push r) := by rw [fetched_eq hop ha, decode_push]
  rw [step_of_decode hm hpc hd, exec_push_of_lt hr, pushed]

theorem step_pop {s : State} {r : Byte} (hr : r.toNat < 8) (hm : s.mode = .running) (hpc : s.pc.toNat ≤ 253)
    (hop : Memory.read s.mem s.pc.toNat = Opcode.pop) (ha : Memory.read s.mem (s.pc.toNat + 1) = r) :
    step s = .next (popped s ⟨r.toNat, hr⟩) := by
  have hd : decode s.fetched = .ok (.pop r) := by rw [fetched_eq hop ha, decode_pop]
  rw [step_of_decode hm hpc hd, exec_pop_of_lt hr, popped]

/-- An advance by 2 is exact at every pc a fetch succeeds at. -/
theorem toNat_pc_add_two {pc : PcWord} (h : pc.toNat ≤ 253) : (pc + BitVec.ofNat 9 2).toNat = pc.toNat + 2 := by
  rw [BitVec.toNat_add, BitVec.toNat_ofNat]
  omega

theorem toNat_pushed_pc {s : State} (h : s.pc.toNat ≤ 253) (v : Byte) : (pushed s v).pc.toNat = s.pc.toNat + 2 :=
  toNat_pc_add_two h

theorem toNat_popped_pc {s : State} (h : s.pc.toNat ≤ 253) (k : Fin 8) : (popped s k).pc.toNat = s.pc.toNat + 2 :=
  toNat_pc_add_two h

theorem read_pushed_same {s : State} (hwf : Memory.wf s.mem = true) (v : Byte) :
    Memory.read (pushed s v).mem (pushAddr s).toNat = v := Memory.read_write_same hwf _ v

theorem read_pushed_other {s : State} {addr : Nat} (h : (pushAddr s).toNat ≠ addr) (v : Byte) :
    Memory.read (pushed s v).mem addr = Memory.read s.mem addr := Memory.read_write_other s.mem v h

theorem popAddr_pushed (s : State) (v : Byte) : popAddr (pushed s v) = pushAddr s :=
  State.setSp_sp s (pushAddr s)

/-- POP of `k` leaves the byte it read in `k`, also for `k` = 7. -/
theorem popped_getElem_same (s : State) (k : Fin 8) :
    (popped s k).x[(k : Nat)] = Memory.read s.mem (popAddr s).toNat := by
  simp [popped]

/-- POP of another register than 7 leaves the incremented stack pointer. -/
theorem popped_sp {s : State} {k : Fin 8} (h : (k : Nat) ≠ 7) :
    (popped s k).x[7] = narrow ((s.sp.toNat : Int) + 1) := by
  simp [popped, h]

/-- The increment of a POP undoes the decrement of a PUSH, modulo 256. -/
theorem narrow_pushAddr_succ (s : State) : narrow ((pushAddr s).toNat + 1) = s.sp := by
  have hlt := s.sp.isLt
  apply BitVec.eq_of_toNat_eq
  rw [← Int.natCast_succ, toNat_narrow_natCast, pushAddr_toNat]
  omega

/-- Settles O32: the push does not touch the POP's two bytes, so the second step is the POP; it reads the cell just
written and increments the stack pointer just decremented. -/
theorem pushThenPopRestoresTheStackPointer : Obligations.PushThenPopRestoresTheStackPointer := by
  intro s r r' hr hr' hwf hm hpc hop ha hop' ha' hne2 hne3
  rw [x7_pred_eq_pushAddr s] at hne2 hne3
  have hpush := step_push hr hm (by omega) hop ha
  have hpc' := toNat_pushed_pc (s := s) (by omega) s.x[r.toNat]
  have hpop : step (pushed s s.x[r.toNat]) = .next (popped (pushed s s.x[r.toNat]) ⟨r'.toNat, hr'⟩) := by
    refine step_pop hr' hm (by omega) ?_ ?_
    · rw [hpc', read_pushed_other hne2, hop']
      rfl
    · rw [hpc', read_pushed_other hne3, ha']
  refine ⟨_, (reaches_succ 1 _ _).mpr ⟨_, hpush, reaches_one hpop⟩, ?value, fun hne => ?stackPointer, ?pc, hm⟩
  case value => rw [popped_getElem_same _ ⟨r'.toNat, hr'⟩, popAddr_pushed, read_pushed_same hwf]
  case stackPointer =>
    calc (popped (pushed s s.x[r.toNat]) ⟨r'.toNat, hr'⟩).x[7]
        = narrow ((popAddr (pushed s s.x[r.toNat])).toNat + 1) := popped_sp hne
      _ = narrow ((pushAddr s).toNat + 1) := by rw [popAddr_pushed]
      _ = s.x[7] := narrow_pushAddr_succ s
  case pc =>
    rw [toNat_popped_pc (by omega), hpc']

/-- Settles O33: the next fetch is at the address just stored to. -/
theorem pushIntoCodeIsFetchedByTheNextStep : Obligations.PushIntoCodeIsFetchedByTheNextStep := by
  intro s r hr hwf hm hpc hop ha haddr
  rw [x7_pred_eq_pushAddr s] at haddr
  have hpc' := toNat_pushed_pc (s := s) (by omega) s.x[r.toNat]
  refine ⟨_, _, step_push hr hm (by omega) hop ha, hm, hpc', fetch_ok (by omega), ?_⟩
  calc (pushed s s.x[r.toNat]).fetched.opcode
      = Memory.read (pushed s s.x[r.toNat]).mem (pushAddr s).toNat := by rw [haddr, ← hpc', State.fetched]
    _ = s.x[r.toNat] := read_pushed_same hwf _

end Sys2Proof.Machine
end

section
/-! PROOFS. How a run ends (spec/40_execution_cycle.md R91; spec/70_reset_and_hazards.md R176). -/

namespace Sys2Proof.Machine

/-- `s` reaches an ended state after at least one step: Halted within `n` steps, or Faulted within one more. -/
def EndsWithin (n : Nat) (s : State) : Prop :=
  ∃ (k : Nat) (t : State), 1 ≤ k ∧ Reaches k s t ∧
    ((t.mode = .halted ∧ k ≤ n) ∨ (t.mode = .faulted ∧ k ≤ n + 1))

theorem endsWithin_of_step {n : Nat} {s u : State} (h : step s = .next u) (hu : EndsWithin n u) :
    EndsWithin (n + 1) s := by
  obtain ⟨k, t, -, hrun, hend⟩ := hu
  exact ⟨k + 1, t, by omega, (reaches_succ k s t).mpr ⟨u, h, hrun⟩,
    hend.imp (And.imp_right Nat.succ_le_succ) (And.imp_right Nat.succ_le_succ)⟩

/-- Each step that stays in Running makes the pc larger, and above 253 the fetch faults. -/
theorem endsWithin_of_pc {n : Nat} {s : State} (hm : s.mode = .running) (hpc : 254 ≤ s.pc.toNat + n) :
    EndsWithin n s := by
  induction n generalizing s with
  | zero => exact ⟨1, _, Nat.le_refl 1, reaches_one (step_of_fetch_fault hm hpc), .inr ⟨rfl, Nat.le_refl 1⟩⟩
  | succ n ih =>
    obtain ⟨u, hu⟩ := exists_step_iff.mpr hm
    obtain ⟨hready, -, -, hgrows⟩ := modeChangesOnlyByHaltAndFault s u hu
    cases hmode : u.mode with
    | ready => exact absurd hmode hready
    | halted => exact ⟨1, u, Nat.le_refl 1, reaches_one hu, .inl ⟨hmode, by omega⟩⟩
    | faulted => exact ⟨1, u, Nat.le_refl 1, reaches_one hu, .inr ⟨hmode, by omega⟩⟩
    | running =>
      have hlt := hgrows hmode
      exact endsWithin_of_step hu (ih hmode (by omega))

/-- Settles O41: the pc starts at 0 at least, so 254 steps that stay in Running leave no room for another. -/
theorem everyRunEndsWithin255Steps : Obligations.EveryRunEndsWithin255Steps := by
  intro s hm
  obtain ⟨k, t, hk, hrun, hend⟩ := endsWithin_of_pc (n := 254) hm (Nat.le_add_left 254 _)
  refine ⟨k, t, hk, hrun, hend, fun hstep => ?_⟩
  have hrunning := exists_step_iff.mp hstep
  simp [hrunning] at hend

/-! ## A run over zeros -/

/-- The events of a run over `n` zero bytes from a pc on. -/
def zeroReports (pc n : Nat) : List Event := (List.range n).map fun k => .unknown 0 (BitVec.ofNat 9 (pc + k))

theorem zeroReports_succ (pc n : Nat) :
    zeroReports pc (n + 1) = .unknown 0 (BitVec.ofNat 9 pc) :: zeroReports (pc + 1) n := by
  simp [zeroReports, List.range_succ_eq_map, Function.comp_def, Nat.add_assoc, Nat.add_comm 1]

/-- The state a run over zeros from `s` ends in, after `n` reports. -/
def fallenOff (s : State) (n : Nat) : State :=
  { s with pc := 254, mode := .faulted, fault := some (.addressingFault 256),
           trace := s.trace ++ zeroReports s.pc.toNat n }

/-- A zero byte is reported and skipped. -/
theorem step_zero {s : State} (hm : s.mode = .running) (hpc : s.pc.toNat ≤ 253)
    (hzero : Memory.read s.mem s.pc.toNat = 0) : step s = .next (s.reportUnknown 0) := by
  have hop : s.fetched.opcode = 0 := hzero
  rw [step_of_unknown hm hpc (by rw [hop]; decide), hop]

theorem toNat_reportUnknown_zero_pc {s : State} (hpc : s.pc.toNat ≤ 253) :
    (s.reportUnknown 0).pc.toNat = s.pc.toNat + 1 := toNat_pc_add_instrLength hpc 0

/-- Reporting a zero byte first changes nothing about where the run ends. -/
theorem fallenOff_reportUnknown {s : State} (hpc : s.pc.toNat ≤ 253) (n : Nat) :
    fallenOff (s.reportUnknown 0) n = fallenOff s (n + 1) := by
  have hreports : zeroReports s.pc.toNat (n + 1) = .unknown 0 s.pc :: zeroReports (s.pc.toNat + 1) n := by
    rw [zeroReports_succ, BitVec.ofNat_toNat, BitVec.setWidth_eq]
  simp only [fallenOff, toNat_reportUnknown_zero_pc hpc, hreports, State.reportUnknown_trace, List.append_assoc,
    List.singleton_append]
  rfl

/-- A run over zeros from `n` cells below 254: one report for each cell, then the fetch at 254 faults. -/
theorem reaches_fallenOff {n : Nat} {s : State} (hm : s.mode = .running) (hpc : s.pc.toNat + n = 254)
    (hzero : ∀ addr, s.pc.toNat ≤ addr → addr ≤ 255 → Memory.read s.mem addr = 0) :
    Reaches (n + 1) s (fallenOff s n) := by
  induction n generalizing s with
  | zero =>
    have hpc254 : s.pc = 254 := BitVec.eq_of_toNat_eq hpc
    have hend : fallenOff s 0 = s.takeFault (.addressingFault (max 256 s.pc.toNat)) := by
      simp [fallenOff, zeroReports, State.takeFault, hpc254]
    rw [hend]
    exact reaches_one (step_of_fetch_fault hm (by omega))
  | succ n ih =>
    have hle : s.pc.toNat ≤ 253 := by omega
    have hpc' := toNat_reportUnknown_zero_pc hle
    refine (reaches_succ (n + 1) _ _).mpr ⟨_, step_zero hm hle (hzero _ (Nat.le_refl _) (by omega)), ?_⟩
    rw [← fallenOff_reportUnknown hle]
    exact ih hm (by omega) fun addr hge => hzero addr (by omega)

/-- Settles O42: the run over zeros from `254 - pc` cells below 254. -/
theorem fallingOffTheEndReportsEveryZeroByte : Obligations.FallingOffTheEndReportsEveryZeroByte := by
  intro s hm hpc hzero
  rw [show 255 - s.pc.toNat = 254 - s.pc.toNat + 1 by omega]
  exact reaches_fallenOff hm (by omega) hzero

end Sys2Proof.Machine
end

section
/-! PROOFS. Reset, the host's load and launch, and the debug view (spec/10_state.md R38; spec/20_memory.md R55;
spec/70_reset_and_hazards.md R170 to R172, R176; spec/60_exceptions.md R156). -/

namespace Sys2Proof.Machine

/-- Settles O1: the reset registers are the parameter with the stack pointer after it, and the empty Memory reads
as 0. -/
theorem resetHoldsTheResetValues : Obligations.ResetHoldsTheResetValues :=
  ⟨fun _ => ⟨rfl, rfl, Vector.getElem_push_eq, fun _ hk => Vector.getElem_push_lt hk, rfl, rfl, rfl,
    fun _ => rfl⟩, rfl⟩

/-- The invariant at reset, whatever the reset registers are. -/
theorem machineInv_resetWith (gpr : Vector Byte 7) : MachineInv (State.resetWith gpr) :=
  ⟨resetWith_mem_wf gpr, show Config.pcReset.toNat ≤ 257 by decide, .inl rfl, by simp [State.resetWith],
    by simp [State.resetWith], by simp [State.resetWith]⟩

/-- Settles O2: the reset state is one of those. -/
theorem resetMeetsTheInvariant : Obligations.ResetMeetsTheInvariant := machineInv_resetWith _

/-! ## Loading -/

theorem hostLoad_ok {s : State} {addr : Nat} (hm : s.mode = .ready) (haddr : addr < 256) (v : Nat) :
    s.hostLoad addr v = .next (s.setMem (Memory.write s.mem addr (BitVec.ofNat 8 v))) := by
  simp only [State.hostLoad, hm, memWrite_ok haddr]
  rfl

theorem hostLoad_fault {s : State} {addr : Nat} (hm : s.mode = .ready) (haddr : 256 ≤ addr) (v : Nat) :
    s.hostLoad addr v = .fault (.loadFailure addr) := by
  simp only [State.hostLoad, hm, memWrite_fault (Nat.not_lt.mpr haddr)]

/-- Memory after the literals are written at consecutive addresses. -/
def Memory.load (m : Memory) (addr : Nat) : List Nat → Memory
  | [] => m
  | v :: vs => Memory.load (Memory.write m addr (BitVec.ofNat 8 v)) (addr + 1) vs

theorem Memory.wf_load {m : Memory} {addr : Nat} {vs : List Nat} (hm : Memory.wf m = true)
    (hlen : addr + vs.length ≤ 256) : Memory.wf (Memory.load m addr vs) = true := by
  induction vs generalizing m addr with
  | nil => exact hm
  | cons v vs ih =>
    rw [List.length_cons] at hlen
    exact ih (Memory.wf_write hm (by omega) _) (by omega)

theorem Memory.read_load_below {m : Memory} {addr b : Nat} {vs : List Nat} (hb : b < addr) :
    Memory.read (Memory.load m addr vs) b = Memory.read m b := by
  induction vs generalizing m addr with
  | nil => rfl
  | cons v vs ih => rw [Memory.load, ih (Nat.lt_succ_of_lt hb), Memory.read_write_other m _ (Nat.ne_of_gt hb)]

/-- The `k`-th cell from the load address on holds the `k`-th literal modulo 256; past the literals it is as
before. -/
theorem Memory.read_load {m : Memory} {addr : Nat} {vs : List Nat} (hm : Memory.wf m = true)
    (hlen : addr + vs.length ≤ 256) (k : Nat) :
    Memory.read (Memory.load m addr vs) (addr + k) =
      (vs[k]?.map (BitVec.ofNat 8)).getD (Memory.read m (addr + k)) := by
  induction vs generalizing m addr k with
  | nil => rfl
  | cons v vs ih =>
    rw [List.length_cons] at hlen
    have hwf := Memory.wf_write hm (a := addr) (by omega) (BitVec.ofNat 8 v)
    cases k with
    | zero => simp [Memory.load, Memory.read_load_below, Memory.read_write_same hm]
    | succ k =>
      have hk : addr + (k + 1) = addr + 1 + k := by omega
      rw [Memory.load, hk, ih hwf (by omega), Memory.read_write_other m _ (by omega), List.getElem?_cons_succ]

theorem loadFrom_ok {s : State} {addr : Nat} {vs : List Nat} (hm : s.mode = .ready)
    (hlen : addr + vs.length ≤ 256) :
    s.loadFrom addr vs = .next (s.setMem (Memory.load s.mem addr vs)) := by
  induction vs generalizing s addr with
  | nil => rfl
  | cons v vs ih =>
    rw [List.length_cons] at hlen
    rw [State.loadFrom, hostLoad_ok hm (by omega)]
    exact ih hm (by omega)

/-- Too many literals fault at the first address above 255. -/
theorem loadFrom_fault {s : State} {addr : Nat} {vs : List Nat} (hm : s.mode = .ready) (haddr : addr ≤ 256)
    (hlen : 256 < addr + vs.length) : s.loadFrom addr vs = .fault (.loadFailure 256) := by
  induction vs generalizing s addr with
  | nil => simp at hlen; omega
  | cons v vs ih =>
    rw [List.length_cons] at hlen
    rw [State.loadFrom]
    by_cases hlt : addr < 256
    · rw [hostLoad_ok hm hlt]
      exact ih hm (by omega) (by omega)
    · obtain rfl : addr = 256 := by omega
      rw [hostLoad_fault hm (Nat.le_refl 256)]

/-! ## Booting -/

theorem launch_of_ready {s : State} (hm : s.mode = .ready) : s.launch = .next { s with mode := .running } := by
  simp only [State.launch, hm]

/-- The booted machine: the reset values, the image in Memory, Running. -/
def booted (gpr : Vector Byte 7) (image : List Nat) : State :=
  { State.resetWith gpr with mem := Memory.load [] 0 image, mode := .running }

theorem boot_ok {image : List Nat} (gpr : Vector Byte 7) (hlen : image.length ≤ 256) :
    boot gpr image = .next (booted gpr image) := by
  rw [boot, State.loadImage, loadFrom_ok rfl (by omega)]
  exact launch_of_ready rfl

theorem boot_fault {image : List Nat} (gpr : Vector Byte 7) (hlen : 256 < image.length) :
    boot gpr image = .fault (.loadFailure 256) := by
  rw [boot, State.loadImage, loadFrom_fault rfl (Nat.zero_le 256) (by omega)]

theorem read_booted {image : List Nat} (gpr : Vector Byte 7) (hlen : image.length ≤ 256) (addr : Nat) :
    Memory.read (booted gpr image).mem addr = BitVec.ofNat 8 (image[addr]?.getD 0) := by
  have h := Memory.read_load (m := []) (addr := 0) (vs := image) rfl (by omega) addr
  rw [Nat.zero_add] at h
  rw [booted, h]
  cases image[addr]? <;> rfl

/-- Settles O43: a fitting image is written cell by cell into the empty Memory; the 257th literal is the load
failure. -/
theorem bootLoadsTheImageAndLaunches : Obligations.BootLoadsTheImageAndLaunches := fun gpr image =>
  ⟨fun hlen => ⟨booted gpr image, boot_ok gpr hlen, rfl, Memory.wf_load rfl (by omega), read_booted gpr hlen⟩,
    boot_fault gpr⟩

theorem machineInv_booted {image : List Nat} (gpr : Vector Byte 7) (hlen : image.length ≤ 256) :
    MachineInv (booted gpr image) :=
  ((machineInv_resetWith gpr).setMem (Memory.wf_load rfl (by omega))).setMode
    (by simp [State.resetWith]) (by decide)

/-- A machine that booted meets the invariant. -/
theorem machineInv_of_boot {gpr : Vector Byte 7} {image : List Nat} {s : State} (h : boot gpr image = .next s) :
    MachineInv s := by
  by_cases hlen : image.length ≤ 256
  · cases (boot_ok gpr hlen).symm.trans h
    exact machineInv_booted gpr hlen
  · cases (boot_fault gpr (Nat.lt_of_not_le hlen)).symm.trans h

/-- Settles O4: the invariant holds after boot and along the run, and outside Faulted it says there is no record. -/
theorem everyRunFromBootMeetsTheInvariant : Obligations.EveryRunFromBootMeetsTheInvariant := by
  intro gpr image s t k hboot hrun
  have ht : MachineInv t := kept_along_run everyStepKeepsTheInvariant (machineInv_of_boot hboot) hrun
  exact ⟨ht, fun hhalted => ht.fault_eq_none (by simp [hhalted])⟩

/-- Settles O44: both acts look at the mode first. -/
theorem hostActsOnlyInReady : Obligations.HostActsOnlyInReady := by
  intro s addr v
  refine ⟨fun hne => ?_, launch_of_ready⟩
  cases hm : s.mode with
  | ready => exact absurd hm hne
  | _ => exact ⟨by simp only [State.hostLoad, hm], by simp only [State.launch, hm]⟩

/-! ## Placing a word -/

theorem read_placeByte_same {m : Memory} (hm : Memory.wf m = true) {a : Nat} (ha : a < 256) (v : Byte) :
    Memory.read (placeByte m a v) a = v := by
  rw [placeByte, if_pos (show a < Config.memSize from ha), Memory.read_write_same hm]

theorem read_placeByte_other (m : Memory) {a b : Nat} (h : a ≠ b) (v : Byte) :
    Memory.read (placeByte m a v) b = Memory.read m b := by
  unfold placeByte
  split
  · exact Memory.read_write_other m v h
  · rfl

/-- The word placed at the pc is the one fetched there. -/
theorem placeFetched_fetched {s : State} (hm : Memory.wf s.mem = true) (hpc : s.pc.toNat ≤ 253) (f : Fetched) :
    (placeFetched s f).fetched = f := by
  have hm1 := Memory.wf_placeByte hm s.pc.toNat f.opcode
  have hm2 := Memory.wf_placeByte hm1 (s.pc.toNat + 1) f.operandA
  have hop : Memory.read (placeFetched s f).mem s.pc.toNat = f.opcode := by
    rw [placeFetched, read_placeByte_other _ (by omega), read_placeByte_other _ (by omega),
      read_placeByte_same hm (by omega)]
  have ha : Memory.read (placeFetched s f).mem (s.pc.toNat + 1) = f.operandA := by
    rw [placeFetched, read_placeByte_other _ (by omega), read_placeByte_same hm1 (by omega)]
  have hb : Memory.read (placeFetched s f).mem (s.pc.toNat + 2) = f.operandB := by
    rw [placeFetched, read_placeByte_same hm2 (by omega)]
  calc (placeFetched s f).fetched
      = ⟨Memory.read (placeFetched s f).mem s.pc.toNat, Memory.read (placeFetched s f).mem (s.pc.toNat + 1),
          Memory.read (placeFetched s f).mem (s.pc.toNat + 2)⟩ := rfl
    _ = f := by rw [hop, ha, hb]

/-- What a table word decodes to is what the decoder answers on its three bytes. -/
theorem decode_of_decodeTableWord {nbits w : Nat} {i : Instr} (h : decodeTableWord nbits w = some i) :
    decode (tableFetched nbits w) = .ok i := by
  unfold decodeTableWord at h
  cases hd : decode (tableFetched nbits w) with
  | ok j => rw [hd] at h; cases h; rfl
  | error e => rw [hd] at h; cases h

/-- Settles O45: the placed word is what the step fetches, and it decodes to the instruction. -/
theorem placedWordIsRunByTheNextStep : Obligations.PlacedWordIsRunByTheNextStep := by
  intro s nbits w i hwf hpc hd
  refine step_of_decode rfl hpc ?_
  rw [State.withFetchWord, placeFetched_fetched hwf hpc, decode_of_decodeTableWord hd]

/-! ## The debug view -/

/-- A cell of the view: the byte where there is a cell, else none. -/
theorem viewByte_eq (s : State) (addr : Nat) :
    viewByte s addr = if addr ≤ 255 then some (Memory.read s.mem addr) else none := by
  by_cases h : addr ≤ 255
  · rw [viewByte, memRead_ok (by omega), if_pos h]
    rfl
  · rw [viewByte, memRead_fault (by omega), if_neg h]
    rfl

/-- Settles O46: the three entries are the views of the three addresses from the pc on. -/
theorem debugViewShowsPcBytesAndRegisters : Obligations.DebugViewShowsPcBytesAndRegisters := by
  intro s
  refine ⟨rfl, rfl, rfl, fun k hk => ?_⟩
  rw [← viewByte_eq]
  match k, hk with
  | 0, _ => rfl
  | 1, _ => rfl
  | 2, _ => rfl

end Sys2Proof.Machine
end
